-- ==== Sys2Proof/Word.lean ====
section
/-! DEFINITION. The word types of the FA1 codec block. -/

namespace Sys2Proof

/-- A byte, "an unsigned 8-bit value" (00_scope R7). -/
abbrev Byte := BitVec 8

/-- A command word, 16 bits (00_scope R6 CMD_W, 30_encoding R104). -/
abbrev CmdWord := BitVec 16

end Sys2Proof
end

