-- ==== Sys2Proof/Syntax.lean ====
section
/-! DEFINITION. The four commands of spec/opcode_table.json (30_encoding R105). -/

namespace Sys2Proof

/-- A command of the block. The operand of CSGEN and CSVFY is the entry address EA: block `b`, 5 bits, and slot
`sl`, 3 bits (30_encoding R106). The slot field can hold the reserved value 7, which `Instr.wellFormed` refuses. -/
inductive Instr where
  | encode
  | decode
  | csgen (b : BitVec 5) (sl : BitVec 3)
  | csvfy (b : BitVec 5) (sl : BitVec 3)
deriving DecidableEq, Repr

end Sys2Proof
end

