-- ==== Sys2Proof/WellFormed.lean ====
section
/-! DEFINITION. Which terms of Instr are commands of the block. -/

namespace Sys2Proof

/-- "Slot indices 0 to 6 are legal; `s = 7` is reserved and makes the command illegal" (30_encoding R106).
ENCODE and DECODE have no operand, so each has one form. -/
def Instr.wellFormed : Instr → Bool
  | .encode => true
  | .decode => true
  | .csgen _ sl => decide (sl ≠ 7)
  | .csvfy _ sl => decide (sl ≠ 7)

end Sys2Proof
end

