-- ==== Sys2Proof/Decode.lean ====
section
/-! DEFINITION. Decoding of command words and the encoder, both written from 30_encoding R104 to R107. -/

namespace Sys2Proof

/-- Why a word selects no command (30_encoding R107). All three end the H-CMD with IllegalCommand. -/
inductive DecodeError where
  /-- the opcode is 0x00 or in 0x05 to 0xFF -/
  | noSuchOpcode (op : Byte)
  /-- ENCODE or DECODE with a nonzero operand -/
  | operandNotZero (op arg : Byte)
  /-- CSGEN or CSVFY naming the reserved slot 7 -/
  | reservedSlot (op : Byte) (b : BitVec 5)
deriving DecidableEq, Repr

/-- `w[15:8]`, the opcode (30_encoding R104). -/
def opcodeField (w : CmdWord) : Byte := w.extractLsb' 8 8

/-- `w[7:0]`, the operand byte (30_encoding R104). -/
def operandField (w : CmdWord) : Byte := w.extractLsb' 0 8

/-- `arg[7:3]`, the block index (30_encoding R106). -/
def blockField (arg : Byte) : BitVec 5 := arg.extractLsb' 3 5

/-- `arg[2:0]`, the slot index (30_encoding R106). -/
def slotField (arg : Byte) : BitVec 3 := arg.extractLsb' 0 3

/-- The command a word selects, or why it selects none (30_encoding R105, R106, R107). Total on all words. -/
def decodeWord (w : CmdWord) : Except DecodeError Instr :=
  let op := opcodeField w
  let arg := operandField w
  let b := blockField arg
  let sl := slotField arg
  if op = 0x01 then
    if arg = 0 then .ok .encode else .error (.operandNotZero op arg)
  else if op = 0x02 then
    if arg = 0 then .ok .decode else .error (.operandNotZero op arg)
  else if op = 0x03 then
    if sl = 7 then .error (.reservedSlot op b) else .ok (.csgen b sl)
  else if op = 0x04 then
    if sl = 7 then .error (.reservedSlot op b) else .ok (.csvfy b sl)
  else .error (.noSuchOpcode op)

/-- The word of a command: opcode in the high byte, EA as block then slot in the low byte (30_encoding R104 to R106). -/
def encodeWord : Instr → CmdWord
  | .encode => 0x01#8 ++ 0x00#8
  | .decode => 0x02#8 ++ 0x00#8
  | .csgen b sl => 0x03#8 ++ (b ++ sl)
  | .csvfy b sl => 0x04#8 ++ (b ++ sl)

/-- A row of the command map: `match` and `mask` (30_encoding R105). -/
structure CommandRow where
  pattern : CmdWord
  mask : CmdWord
deriving DecidableEq, Repr

/-- The command map's row of a command (30_encoding R105, spec/opcode_table.json). -/
def commandRow : Instr → CommandRow
  | .encode => ⟨0x0100, 0xFFFF⟩
  | .decode => ⟨0x0200, 0xFFFF⟩
  | .csgen _ _ => ⟨0x0300, 0xFF00⟩
  | .csvfy _ _ => ⟨0x0400, 0xFF00⟩

/-- The command word whose bits are the low `nbits` of `w`, bit 0 the least significant; the bits above are 0.
Every command is one 16-bit word written whole (30_encoding R109), so the word has no byte order. -/
def tableWord (nbits w : Nat) : CmdWord := BitVec.ofNat 16 (w % 2 ^ nbits)

/-- What the decoder reads from a word given as spec/opcode_table.json numbers its bits. -/
def decodeTableWord (nbits w : Nat) : Option Instr :=
  match decodeWord (tableWord nbits w) with
  | .ok i => some i
  | .error _ => none

end Sys2Proof
end

