-- ==== Sys2Proof/Machine/Flags.lean ====
section
/-! DEFINITION. The fields of STATUS (10_state R31) and their updates. Software reads STATUS whole, so it stays a bit
vector; the reserved bits 6:5 are written by nobody. -/

namespace Sys2Proof.Machine

/-- The errors of the block (60_exceptions R231 to R235). -/
inductive BlockError where
  | formatError | capacityError | nameError | domainError | illegalCommand
deriving DecidableEq, Repr

/-- The code STATUS.ERR reports (10_state R31, 60_exceptions R231 to R235). -/
def BlockError.code : BlockError → BitVec 4
  | .formatError => 1
  | .capacityError => 2
  | .nameError => 3
  | .domainError => 4
  | .illegalCommand => 5

/-- STATUS.ERR, bits 3:0. -/
def statusErr (st : BitVec 8) : BitVec 4 := st.extractLsb' 0 4

/-- STATUS.CSOK, bit 4. -/
def statusCsok (st : BitVec 8) : Bool := st.getLsbD 4

/-- STATUS.SERR, bit 7. -/
def statusSerr (st : BitVec 8) : Bool := st.getLsbD 7

/-- The reserved bits 6:5, which read as 0. -/
def statusReserved (st : BitVec 8) : BitVec 2 := st.extractLsb' 5 2

/-- `STATUS.ERR <- c`. -/
def setStatusErr (st : BitVec 8) (c : BitVec 4) : BitVec 8 := (st &&& 0xF0) ||| c.setWidth 8

/-- `STATUS.CSOK <- ok`. -/
def setStatusCsok (st : BitVec 8) (ok : Bool) : BitVec 8 := (st &&& 0xEF) ||| (if ok then 0x10 else 0x00)

/-- `STATUS.SERR <- 1`. -/
def setStatusSerr (st : BitVec 8) : BitVec 8 := st ||| 0x80

end Sys2Proof.Machine
end

