-- ==== Sys2Proof/Config.lean ====
section
/-! DEFINITION. What an implementation fixes and what the spec leaves free: constants with no body, so that
no proof can rest on a value of theirs. -/

namespace Sys2Proof.Config

/-- FREE VALUE (10_state R38, 93 U12: "8192 free bytes, fixed until written"): `resetByte k a` is the byte that
address `a` of IMG holds after the `k`-th reset until something writes it. Safe: nothing constrains it. Log entry 1. -/
opaque resetByte : Nat → Nat → Byte

/-- FREE VALUE (00_scope R6, D4: NAME_IN_MAX is OPEN, "a natural number ≥ 26"): how far NAME_IN_MAX lies above 26.
Safe: nothing constrains it. Log entry 4. -/
opaque nameInMaxAbove26 : Nat

/-- NAME_IN_MAX, the largest name length, in bytes, that a record register can hold on input (00_scope R6). -/
def nameInMax : Nat := 26 + nameInMaxAbove26

end Sys2Proof.Config
end

