-- ==== Sys2Proof/Machine/State.lean ====
section
/-! DEFINITION. The block's state as plain data, its value after reset, and the reasons a step can stop. -/

namespace Sys2Proof.Machine

/-- A `ProgramRecord`, what a program record register holds (10_state R21). -/
structure ProgramRecord where
  name : List Byte
  temperature : BitVec 9
  powerLevel : Byte
  timerOff : Bool
  hours : Byte
  minutes : Byte
  seconds : Byte
  timerStart : Byte
  afterTimer : Byte
deriving DecidableEq, Repr

/-- An `AlarmRecord`, what an alarm record register holds (10_state R23). -/
structure AlarmRecord where
  name : List Byte
  temperature : BitVec 9
deriving DecidableEq, Repr

/-- A register H-RDCSR can read (20_memory R73). -/
inductive Csr where
  | np | na | ilen | status | erridx | csval
deriving DecidableEq, Repr

/-- What the outside world can do to the block: the host's transactions (20_memory R70 to R77) and the platform's
reset (70_reset R260). Image addresses have 13 bits (20_memory R50), so none lies outside IMG. -/
inductive Transaction where
  | setp (l : List ProgramRecord)
  | seta (l : List AlarmRecord)
  | getp (i : Nat)
  | geta (i : Nat)
  | rdcsr (r : Csr)
  | loadimg (bs : List Byte)
  | rdimg (a : BitVec 13)
  | wrimg (a : BitVec 13) (v : Byte)
  | cmd (w : CmdWord)
  | reset
deriving DecidableEq, Repr

/-- What a transaction returns to the host (20_memory R72, R73, R75). A register's value is zero-extended to 14 bits,
the width of the widest of them, ILEN (DESIGN CHOICE, log entry 3). -/
inductive Reply where
  | program (r : ProgramRecord)
  | alarm (r : AlarmRecord)
  | csr (v : BitVec 14)
  | byte (v : Byte)
deriving DecidableEq, Repr

/-- The bytes of IMG written since reset, as address and byte, addresses strictly rising. An address that is not listed
holds no written byte yet and reads as the free byte `Config.resetByte` (log entry 1). -/
abbrev Memory := List Host.Cell

/-- The block's state (10_state R20): the nine pieces of the spec, and three fields of the model's own. -/
structure State where
  /-- P, the registers below min(NP,112), in index order (10_state R22, R26) -/
  p : List ProgramRecord
  /-- NP (10_state R22) -/
  np : BitVec 8
  /-- A, the registers below min(NA,112), in index order (10_state R24, R26) -/
  a : List AlarmRecord
  /-- NA (10_state R24) -/
  na : BitVec 8
  /-- IMG (10_state R28) -/
  img : Memory
  /-- ILEN (10_state R29) -/
  ilen : BitVec 14
  /-- STATUS (10_state R31) -/
  status : BitVec 8
  /-- ERRIDX (10_state R32) -/
  erridx : BitVec 8
  /-- CSVAL (10_state R33) -/
  csval : BitVec 8
  /-- the model's own: how many resets lie behind; selects IMG's free bytes (DESIGN CHOICE, log entry 1) -/
  resets : Nat
  /-- the model's own: the transactions still to come, next one first (DESIGN CHOICE, log entry 2) -/
  inbox : List Transaction
  /-- the model's own: what the last transaction returned (DESIGN CHOICE, log entry 3) -/
  reply : Option Reply
deriving DecidableEq, Repr

/-- The block right after reset (10_state R38, 70_reset R260): idle, nothing listed in IMG. The values of `resets`,
`inbox` and `reply` are the model's (DESIGN CHOICE, log entries 1, 2 and 3). -/
def State.reset : State where
  p := []
  np := 0
  a := []
  na := 0
  img := []
  ilen := 0
  status := 0x00
  erridx := 0x00
  csval := 0x00
  resets := 0
  inbox := []
  reply := none

/-- Reasons to stop with a fault: none. Every error of the block is a next state (60_exceptions R238), and no command
or transaction can name an address outside IMG (20_memory R56). Log entry 6. -/
inductive Fault where
deriving DecidableEq, Repr

/-- Reasons a step has no meaning. -/
inductive Refusal where
  /-- raised by an arm of `exec` for a command without a meaning; no arm does. Safe. -/
  | notModelled (mnemonic : String)
  /-- raised by H-GETP and H-GETA at an index at or above min(count,112): "the transaction is refused" (20_memory R72,
  10_state R26). Safe. -/
  | noRecordValue
  /-- raised by H-SETP and H-SETA on a list the host cannot present, over 255 records or with a name over NAME_IN_MAX:
  "the host has no such transaction" (20_memory R70). Safe. -/
  | notPresentable
deriving DecidableEq, Repr

end Sys2Proof.Machine
end

