-- ==== Sys2Proof/Machine/Layout.lean ====
section
/-! DEFINITION. The Layout Model's constants (00_scope R5) and the parameter WS (00_scope R6). -/

namespace Sys2Proof.Machine

/-- IMAGE_SIZE -/
@[simp] abbrev imageSize : Nat := 8192
/-- ALARM_BASE -/
@[simp] abbrev alarmBase : Nat := 4096
/-- BLOCK_SIZE -/
@[simp] abbrev blockSize : Nat := 256
/-- ENTRY_SIZE -/
@[simp] abbrev entrySize : Nat := 36
/-- SLOTS_PER_BLOCK -/
@[simp] abbrev slotsPerBlock : Nat := 7
/-- PNAME_W -/
@[simp] abbrev pnameW : Nat := 26
/-- ANAME_W -/
@[simp] abbrev anameW : Nat := 20
/-- TEMP_MAX -/
@[simp] abbrev tempMax : Nat := 482
/-- TEMP_WRAP -/
@[simp] abbrev tempWrap : Nat := 255
/-- BLOCKS_PER_SECTION -/
@[simp] abbrev blocksPerSection : Nat := 16
/-- CAPACITY, records per list -/
@[simp] abbrev capacity : Nat := 112
/-- FILL, the terminator value -/
@[simp] abbrev fillByte : Byte := 0xFF

/-- WS at the value R6 gives it, decision D18. TRIM, UNPKP and UNPKA take the set as an argument, so that a claim can
quantify over it; DECODE passes this one. Log entry 5. -/
def ws : List Byte := [0x09, 0x0A, 0x0B, 0x0C, 0x0D, 0x20]

end Sys2Proof.Machine
end

