-- ==== Sys2Proof/Machine/Operands.lean ====
section
/-! DEFINITION. Entry addresses: the operand form of CSGEN and CSVFY and the slots of records (20_memory R54, R55). -/

namespace Sys2Proof.Machine

/-- `OFF(b, s) = 256·b + 36·s`, the address of byte 0 of the entry in slot `s` of block `b` (20_memory R54). -/
def off (b sl : Nat) : Nat := blockSize * b + entrySize * sl

/-- The address of the slot an EA operand names (30_encoding R106). -/
def eaAddr (b : BitVec 5) (sl : BitVec 3) : Nat := off b.toNat sl.toNat

/-- `SLOTP(i)`, block and slot of program record `i` (20_memory R55). -/
def slotP (i : Nat) : Nat × Nat := (i / slotsPerBlock, i % slotsPerBlock)

/-- `SLOTA(i)`, block and slot of alarm record `i` (20_memory R55). -/
def slotA (i : Nat) : Nat × Nat := (blocksPerSection + i / slotsPerBlock, i % slotsPerBlock)

/-- Where ENCODE writes program record `i` (40_encoder R141 step 2). -/
def addrP (i : Nat) : Nat := off (slotP i).1 (slotP i).2

/-- Where ENCODE writes alarm record `i` (40_encoder R141 step 3). -/
def addrA (i : Nat) : Nat := off (slotA i).1 (slotA i).2

end Sys2Proof.Machine
end

