-- ==== Sys2Proof/Machine/Ops.lean ====
section
/-! DEFINITION. The named operations over IMG, the registers and the record files, and the error entry. -/

namespace Sys2Proof.Machine

/-! ### Image memory -/

/-- The canonical form: addresses strictly rising, all inside IMG. An address is listed exactly when it has been written
since reset, so no entry stands for an unlisted address's value (log entry 1). -/
abbrev Memory.wf (m : Memory) : Prop :=
  m.Pairwise (fun c d => c.1 < d.1) ∧ ∀ c ∈ m, c.1 < imageSize

/-- The cells at address `x` and above. -/
def fromAddr (m : Memory) (x : Nat) : Memory := m.dropWhile (fun c => decide (c.1 < x))

/-- The byte written at `x` since reset, if one was. -/
def written (m : Memory) (x : Nat) : Option Byte :=
  match fromAddr m x with
  | [] => none
  | c :: _ => if c.1 = x then some c.2 else none

/-- What an address of IMG reads as: the byte written there, else the free byte of the last reset (10_state R38). -/
def readByte (resets : Nat) (m : Memory) (x : Nat) : Byte := (written m x).getD (Config.resetByte resets x)

/-- `n` bytes from address `x` upward, in one walk over the cells. -/
def readSeq (resets : Nat) : Memory → Nat → Nat → List Byte
  | _, _, 0 => []
  | m, x, n + 1 =>
    match fromAddr m x with
    | [] => Config.resetByte resets x :: readSeq resets [] (x + 1) n
    | c :: r =>
      if c.1 = x then c.2 :: readSeq resets r (x + 1) n
      else Config.resetByte resets x :: readSeq resets (c :: r) (x + 1) n

/-- Lays the bytes `vs` over the cells from address `x` upward; no cell of `m` lies below `x`. -/
def overlay : Memory → Nat → List Byte → Memory
  | m, _, [] => m
  | m, x, v :: vs => (x, v) :: overlay (fromAddr m (x + 1)) (x + 1) vs

/-- `IMG[x + k] <- vs[k]` for every `k` below the length of `vs`, keeping the canonical form (00_scope R10). -/
def writeSeq : Memory → Nat → List Byte → Memory
  | [], x, vs => overlay [] x vs
  | c :: r, x, vs => if c.1 < x then c :: writeSeq r x vs else overlay (c :: r) x vs

/-- `IMG[x]` (00_scope R10). -/
def State.imgByte (s : State) (x : Nat) : Byte := readByte s.resets s.img x

/-- `MemRead(x, n)` (00_scope R10). -/
def State.memRead (s : State) (x n : Nat) : List Byte := readSeq s.resets s.img x n

/-- IMG is `m` from here on. -/
def State.setImg (s : State) (m : Memory) : State := { s with img := m }

/-- `MemWrite(x, len(vs), vs)` (00_scope R10). -/
def State.memWrite (s : State) (x : Nat) (vs : List Byte) : State := s.setImg (writeSeq s.img x vs)

/-! ### Registers and record files -/

/-- Replaces the program list and its count; the registers that exist hold the first 112 records (20_memory R70,
10_state R26). -/
def State.setPrograms (s : State) (l : List ProgramRecord) : State :=
  { s with p := l.take capacity, np := BitVec.ofNat 8 l.length }

/-- Replaces the alarm list and its count (20_memory R71, 10_state R26). -/
def State.setAlarms (s : State) (l : List AlarmRecord) : State :=
  { s with a := l.take capacity, na := BitVec.ofNat 8 l.length }

/-- `ILEN <- min(n, 8192)` (10_state R29). -/
def State.setIlen (s : State) (n : Nat) : State := { s with ilen := BitVec.ofNat 14 (min n imageSize) }

/-- `CSVAL <- c` (10_state R33). -/
def State.setCsval (s : State) (c : Byte) : State := { s with csval := c }

/-- `STATUS.CSOK <- ok` (10_state R31). -/
def State.setCsok (s : State) (ok : Bool) : State := { s with status := setStatusCsok s.status ok }

/-- What the transaction just performed returns to the host. -/
def State.answer (s : State) (r : Reply) : State := { s with reply := some r }

/-- The host's next transaction is taken from the inbox; the reply of the one before is gone. -/
def State.accept (s : State) (rest : List Transaction) : State := { s with inbox := rest, reply := none }

/-- The programs ENCODE works on, `P[0..NP)` (10_state R22). -/
def State.programs (s : State) : List ProgramRecord := s.p.take s.np.toNat

/-- The alarms ENCODE works on, `A[0..NA)` (10_state R24). -/
def State.alarms (s : State) : List AlarmRecord := s.a.take s.na.toNat

/-! ### How a command ends -/

/-- The end of a successful command: `STATUS.ERR <- 0`, `ERRIDX <- 0` (10_state R35). -/
def State.succeed (s : State) : State := { s with status := setStatusErr s.status 0, erridx := 0 }

/-- Error entry, `raise E(info)`: STATUS.ERR, STATUS.SERR and ERRIDX, and nothing else (60_exceptions R238). There is no
return beside it: "There is no return instruction. After an error the block is idle" (60_exceptions R239). -/
def raise (e : BlockError) (info : Byte) (s : State) : State :=
  { s with status := setStatusSerr (setStatusErr s.status e.code), erridx := info }

end Sys2Proof.Machine
end

