-- ==== Sys2Proof/Machine/Checksum.lean ====
section
/-! DEFINITION. The checksum unit: CSUM, CSGEN, CSVFY (42_checksum). -/

namespace Sys2Proof.Machine

/-- `CSUM(e) = (e[0] + … + e[34]) mod 256` (42_checksum R211). -/
def csum (e : List Byte) : Byte := BitVec.ofNat 8 ((e.take 35).map BitVec.toNat).sum

/-- CSGEN b, s (42_checksum R212). -/
def execCsgen (b : BitVec 5) (sl : BitVec 3) (s : State) : Host.Outcome State Fault Refusal :=
  if sl = 7 then .next (raise .illegalCommand 0x00 s)
  else
    let x := eaAddr b sl
    let c := csum (s.memRead x 35)
    .next (((s.memWrite (x + 35) [c]).setCsval c).succeed)

/-- CSVFY b, s (42_checksum R213). -/
def execCsvfy (b : BitVec 5) (sl : BitVec 3) (s : State) : Host.Outcome State Fault Refusal :=
  if sl = 7 then .next (raise .illegalCommand 0x00 s)
  else
    let e := s.memRead (eaAddr b sl) entrySize
    let c := csum e
    .next (((s.setCsval c).setCsok (decide (e.getD 35 0 = c))).succeed)

end Sys2Proof.Machine
end

