-- ==== Sys2Proof/Machine/Decoder.lean ====
section
/-! DEFINITION. The decoder: DECODE and its micro-operations (41_decoder). -/

namespace Sys2Proof.Machine

/-! ### Micro-operations -/

/-- `NAMEGET(e, W)`: the bytes of the name field before the first 0x00 (41_decoder R171). -/
def nameget (e : List Byte) (w : Nat) : List Byte := (e.take w).takeWhile (fun v => decide (v ≠ 0x00))

/-- `TRIM(n)` with the whitespace set as an argument (41_decoder R172, 00_scope R6). -/
def trim (white : List Byte) (n : List Byte) : List Byte :=
  (n.dropWhile (fun v => white.contains v)).rdropWhile (fun v => white.contains v)

/-- `TJOIN(tlo, x)`; the result is not compared with the domain (41_decoder R173). -/
def tjoin (tlo : Byte) (x : Bool) : BitVec 9 := if x then tlo.setWidth 9 + 255 else tlo.setWidth 9

/-- `LAB(ord, size)` (41_decoder R174). -/
def lab (o : BitVec 2) (size : Nat) : Byte := if o.toNat < size then o.setWidth 8 else 0

/-- The fields of a control byte (41_decoder R175). -/
structure CtrlFields where
  x : Bool
  aft : BitVec 2
  pl : BitVec 2
  ts : BitVec 2
deriving DecidableEq, Repr

/-- `CTRLUNPACK(c)`; bit 4 is not extracted (41_decoder R175). -/
def ctrlunpack (c : Byte) : CtrlFields where
  x := c.getLsbD 7
  aft := c.extractLsb' 5 2
  pl := c.extractLsb' 2 2
  ts := c.extractLsb' 0 2

/-- The timer fields of a record (41_decoder R176). -/
structure TimerFields where
  timerOff : Bool
  hours : Byte
  minutes : Byte
  seconds : Byte
deriving DecidableEq, Repr

/-- `TIMERDEC(h, m, s)`; no range is checked (41_decoder R176). -/
def timerdec (h m sec : Byte) : TimerFields :=
  if h = 0 ∧ m = 0 ∧ sec = 0 then ⟨true, 0, 0, 0⟩ else ⟨false, h, m, sec⟩

/-- Byte `k` of an entry. -/
def entryByte (e : List Byte) (k : Nat) : Byte := e.getD k 0

/-- `UNPKP(e)`; bytes 26 to 29 and byte 35 are not read (41_decoder R177). -/
def unpkp (white : List Byte) (e : List Byte) : Option ProgramRecord :=
  let n := trim white (nameget e pnameW)
  if n = [] then none
  else
    let c := ctrlunpack (entryByte e 31)
    let t := timerdec (entryByte e 32) (entryByte e 33) (entryByte e 34)
    some
      { name := n
        temperature := tjoin (entryByte e 30) c.x
        powerLevel := lab c.pl 4
        timerOff := t.timerOff
        hours := t.hours
        minutes := t.minutes
        seconds := t.seconds
        timerStart := lab c.ts 3
        afterTimer := lab c.aft 4 }

/-- `UNPKA(e)`; of byte 31 only bit 7 is read (41_decoder R178). -/
def unpka (white : List Byte) (e : List Byte) : Option AlarmRecord :=
  let n := trim white (nameget e anameW)
  if n = [] then none
  else some { name := n, temperature := tjoin (entryByte e 30) ((entryByte e 31).getLsbD 7) }

/-! ### The command -/

/-- What a slot decodes to: nothing when its first byte is 0xFF, the empty-slot sentinel (20_memory R58), else what the
section's unpacking makes of it (41_decoder R180). -/
def decodeSlot {α : Type} (unpack : List Byte → Option α) (e : List Byte) : Option α :=
  if entryByte e 0 = fillByte then none else unpack e

/-- The records of `n` slots that stand one after the other from the front of `bs`, compacted (20_memory R53,
41_decoder R180, loop over `s`). -/
def decodeSlots {α : Type} (unpack : List Byte → Option α) : Nat → List Byte → List α
  | 0, _ => []
  | n + 1, bs => (decodeSlot unpack (bs.take entrySize)).toList ++ decodeSlots unpack n (bs.drop entrySize)

/-- The records of `n` blocks that stand one after the other from the front of `bs`, ascending (20_memory R52,
41_decoder R180, loop over `b`). -/
def decodeBlocks {α : Type} (unpack : List Byte → Option α) : Nat → List Byte → List α
  | 0, _ => []
  | n + 1, bs => decodeSlots unpack slotsPerBlock bs ++ decodeBlocks unpack n (bs.drop blockSize)

/-- Step 1 of DECODE, blocks 0 to 15. The section is fetched whole, as 20_memory R62 allows, and cut into blocks and
slots; Laws/Decoder.lean shows that this is `MemRead(OFF(b, s), 36)` slot by slot. -/
def decodedPrograms (s : State) : List ProgramRecord :=
  decodeBlocks (unpkp ws) blocksPerSection (s.memRead 0 alarmBase)

/-- Step 2 of DECODE, blocks 16 to 31. -/
def decodedAlarms (s : State) : List AlarmRecord :=
  decodeBlocks (unpka ws) blocksPerSection (s.memRead alarmBase alarmBase)

/-- DECODE (41_decoder R180). -/
def execDecode (s : State) : Host.Outcome State Fault Refusal :=
  if s.ilen.toNat < imageSize then .next (raise .formatError 0x00 s)
  else .next (((s.setPrograms (decodedPrograms s)).setAlarms (decodedAlarms s)).succeed)

end Sys2Proof.Machine
end

