-- ==== Sys2Proof/Machine/Encoder.lean ====
section
/-! DEFINITION. The encoder: ENCODE and its micro-operations (40_encoder). -/

namespace Sys2Proof.Machine

/-! ### Micro-operations -/

/-- The tests of CHECKREC on a record's name and temperature, in their order (40_encoder R131). -/
def checkRec (name : List Byte) (temperature : BitVec 9) : Option BlockError :=
  if name.head? = some 0xFF then some .nameError
  else if temperature.toNat > tempMax then some .domainError
  else none

/-- `ORD(code, size)` (40_encoder R132). -/
def ord (code : Byte) (size : Nat) : BitVec 2 := if code.toNat < size then code.setWidth 2 else 0

/-- `TSPLIT(t)`, the low byte and the extension flag (40_encoder R133). -/
def tsplit (t : BitVec 9) : Byte × Bool :=
  if t.toNat > tempWrap then (BitVec.ofNat 8 (t.toNat - tempWrap), true) else (BitVec.ofNat 8 t.toNat, false)

/-- The extension flag in bit 7 (30_encoding R96, R97). -/
def flagByte (x : Bool) : Byte := (BitVec.ofBool x).setWidth 8 <<< 7

/-- `CTRLPACK(x, at, pl, ts)` (40_encoder R134). -/
def ctrlpack (x : Bool) (aft pl ts : BitVec 2) : Byte :=
  flagByte x ||| (aft.setWidth 8 <<< 5) ||| (pl.setWidth 8 <<< 2) ||| ts.setWidth 8

/-- `NAMEPUT(name, W)` (40_encoder R135). -/
def nameput (name : List Byte) (w : Nat) : List Byte :=
  name.take w ++ List.replicate (w - min name.length w) 0x00

/-- `TIMERENC(off, h, m, s)` (40_encoder R136). -/
def timerenc (offBit : Bool) (h m sec : Byte) : Byte × Byte × Byte :=
  if offBit then (0, 0, 0) else (h, m, sec)

/-- `PACKP(r)`: name field, four zero bytes, temperature, control, timer, checksum (40_encoder R137, 30_encoding R91). -/
def packp (r : ProgramRecord) : List Byte :=
  let (tlo, x) := tsplit r.temperature
  let ctrl := ctrlpack x (ord r.afterTimer 4) (ord r.powerLevel 4) (ord r.timerStart 3)
  let (h, m, sec) := timerenc r.timerOff r.hours r.minutes r.seconds
  let e := nameput r.name pnameW ++ List.replicate 4 0x00 ++ [tlo, ctrl, h, m, sec]
  e ++ [csum e]

/-- `PACKA(r)`: name field, ten zero bytes, temperature, flag, three zero bytes, checksum (40_encoder R138,
30_encoding R92). -/
def packa (r : AlarmRecord) : List Byte :=
  let (tlo, x) := tsplit r.temperature
  let e := nameput r.name anameW ++ List.replicate 10 0x00 ++ [tlo, flagByte x, 0x00, 0x00, 0x00]
  e ++ [csum e]

/-! ### The command -/

/-- The first record of a list that fails CHECKREC, in index order from `i`, with its error and the index byte: bit 7
the list, bits 6:0 the index (40_encoder R141 phase 1, 10_state R32). -/
def firstBad (listBit : Byte) : Nat → List (List Byte × BitVec 9) → Option (BlockError × Byte)
  | _, [] => none
  | i, (name, temperature) :: rest =>
    match checkRec name temperature with
    | some e => some (e, listBit ||| BitVec.ofNat 8 i)
    | none => firstBad listBit (i + 1) rest

/-- Phase 1 of ENCODE: the error it ends with, if any, tests in the order of the pseudocode (40_encoder R141,
60_exceptions R237). -/
def encodeError (s : State) : Option (BlockError × Byte) :=
  if s.np.toNat > capacity then some (.capacityError, 0x00)
  else if s.na.toNat > capacity then some (.capacityError, 0x80)
  else
    match firstBad 0x00 0 (s.programs.map fun r => (r.name, r.temperature)) with
    | some e => some e
    | none => firstBad 0x80 0 (s.alarms.map fun r => (r.name, r.temperature))

/-- Writes the entries one after the other, entry number `i` at `addr i` (40_encoder R141 steps 2 and 3). -/
def placeEntries (addr : Nat → Nat) : Nat → List (List Byte) → Memory → Memory
  | _, [], m => m
  | i, e :: es, m => placeEntries addr (i + 1) es (writeSeq m (addr i) e)

/-- IMG after steps 1 to 3 of ENCODE: fill, programs, alarms (40_encoder R141). -/
def encodeImage (s : State) : Memory :=
  placeEntries addrA 0 (s.alarms.map packa)
    (placeEntries addrP 0 (s.programs.map packp)
      (writeSeq s.img 0 (List.replicate imageSize fillByte)))

/-- ENCODE (40_encoder R141). -/
def execEncode (s : State) : Host.Outcome State Fault Refusal :=
  match encodeError s with
  | some (e, info) => .next (raise e info s)
  | none => .next (((s.setImg (encodeImage s)).setIlen imageSize).succeed)

end Sys2Proof.Machine
end

