-- ==== Sys2Proof/Machine/Dispatch.lean ====
section
/-! DEFINITION. One arm per command. -/

namespace Sys2Proof.Machine

def exec (i : Instr) (s : State) : Host.Outcome State Fault Refusal :=
  match i with
  | .encode => Sys2Proof.Machine.execEncode s
  | .decode => Sys2Proof.Machine.execDecode s
  | .csgen b sl => Sys2Proof.Machine.execCsgen b sl s
  | .csvfy b sl => Sys2Proof.Machine.execCsvfy b sl s

end Sys2Proof.Machine
end

