-- ==== Sys2Proof/Machine/Transactions.lean ====
section
/-! DEFINITION. The host's transactions (20_memory R70 to R77) and the platform's reset (70_reset R260), each one atomic
step. -/

namespace Sys2Proof.Machine

/-- A name a record register can hold on input: at most NAME_IN_MAX bytes (00_scope R6, 20_memory R70). NAME_IN_MAX is
at least 26, so the first test only lets an ordinary name be checked without the open parameter's value. -/
def presentableName (n : List Byte) : Bool :=
  decide (n.length ≤ pnameW) || decide (n.length ≤ Config.nameInMax)

/-- H-SETP(L) (20_memory R70). "A list longer than 255, or a name longer than NAME_IN_MAX, cannot be presented". -/
def hostSetp (l : List ProgramRecord) (s : State) : Host.Outcome State Fault Refusal :=
  if l.length ≤ 255 ∧ l.all (fun r => presentableName r.name) = true then .next (s.setPrograms l)
  else .refused .notPresentable

/-- H-SETA(L) (20_memory R71). -/
def hostSeta (l : List AlarmRecord) (s : State) : Host.Outcome State Fault Refusal :=
  if l.length ≤ 255 ∧ l.all (fun r => presentableName r.name) = true then .next (s.setAlarms l)
  else .refused .notPresentable

/-- H-GETP(i) (20_memory R72). -/
def hostGetp (i : Nat) (s : State) : Host.Outcome State Fault Refusal :=
  match (s.p.take (min s.np.toNat capacity))[i]? with
  | some r => .next (s.answer (.program r))
  | none => .refused .noRecordValue

/-- H-GETA(i) (20_memory R72). -/
def hostGeta (i : Nat) (s : State) : Host.Outcome State Fault Refusal :=
  match (s.a.take (min s.na.toNat capacity))[i]? with
  | some r => .next (s.answer (.alarm r))
  | none => .refused .noRecordValue

/-- The current value of a control register (20_memory R73), zero-extended to the reply's 14 bits. -/
def csrValue (r : Csr) (s : State) : BitVec 14 :=
  match r with
  | .np => s.np.setWidth 14
  | .na => s.na.setWidth 14
  | .ilen => s.ilen
  | .status => s.status.setWidth 14
  | .erridx => s.erridx.setWidth 14
  | .csval => s.csval.setWidth 14

/-- H-RDCSR(r) (20_memory R73). -/
def hostRdcsr (r : Csr) (s : State) : Host.Outcome State Fault Refusal :=
  .next (s.answer (.csr (csrValue r s)))

/-- H-LOADIMG(s) (20_memory R74): the first 8192 bytes, and `ILEN <- min(len, 8192)`. -/
def hostLoadimg (bs : List Byte) (s : State) : Host.Outcome State Fault Refusal :=
  .next ((s.memWrite 0 (bs.take imageSize)).setIlen bs.length)

/-- H-RDIMG(a) (20_memory R75). -/
def hostRdimg (x : BitVec 13) (s : State) : Host.Outcome State Fault Refusal :=
  .next (s.answer (.byte (s.imgByte x.toNat)))

/-- H-WRIMG(a, v) (20_memory R76). -/
def hostWrimg (x : BitVec 13) (v : Byte) (s : State) : Host.Outcome State Fault Refusal :=
  .next (s.memWrite x.toNat [v])

/-- H-CMD(w) (20_memory R77): the command the word selects, else IllegalCommand with `info` = 0x00 (60_exceptions R235). -/
def hostCmd (w : CmdWord) (s : State) : Host.Outcome State Fault Refusal :=
  match decodeWord w with
  | .ok i => exec i s
  | .error _ => .next (raise .illegalCommand 0x00 s)

/-- Reset (70_reset R260): the reset state, IMG unspecified anew; what the host will do next is not the block's. -/
def platformReset (s : State) : Host.Outcome State Fault Refusal :=
  .next { State.reset with resets := s.resets + 1, inbox := s.inbox }

/-- One transaction, performed to completion (20_memory R63, R78). -/
def perform (t : Transaction) (s : State) : Host.Outcome State Fault Refusal :=
  match t with
  | .setp l => hostSetp l s
  | .seta l => hostSeta l s
  | .getp i => hostGetp i s
  | .geta i => hostGeta i s
  | .rdcsr r => hostRdcsr r s
  | .loadimg bs => hostLoadimg bs s
  | .rdimg x => hostRdimg x s
  | .wrimg x v => hostWrimg x v s
  | .cmd w => hostCmd w s
  | .reset => platformReset s

end Sys2Proof.Machine
end

