-- ==== Sys2Proof/Machine/Step.lean ====
section
/-! DEFINITION. One step: the host's next transaction, or nothing when the host does nothing. -/

namespace Sys2Proof.Machine

/-- The block has no program counter and no fetch (10_state R27): a step performs the next transaction of the inbox to
completion. With none there the block is idle and the step changes nothing (10_state R38). Log entry 2. -/
def step (s : State) : Host.Outcome State Fault Refusal :=
  match s.inbox with
  | [] => .next s
  | t :: rest => perform t (s.accept rest)

/-- `s` with a write of the command word to CMD as the host's very next transaction (20_memory R77). Log entry 7. -/
def State.withFetchWord (s : State) (nbits w : Nat) : State :=
  { s with inbox := .cmd (tableWord nbits w) :: s.inbox }

end Sys2Proof.Machine
end

