-- ==== Sys2Proof/Safety.lean ====
section
/-! DEFINITION. What counts as a good state and a good run, in the terms claims use. -/

namespace Sys2Proof

open Sys2Proof.Machine

/-- A register holds only what a record register can hold: its name fits NAME_IN_MAX (10_state R21, R23). -/
def NamesFit (names : List (List Byte)) : Prop := ∀ n ∈ names, n.length ≤ Config.nameInMax

/-- What the spec says is so in every state the block can be in. -/
structure StateInv (s : State) : Prop where
  /-- IMG in canonical form, inside [0, 8192) (20_memory R50) -/
  imgWf : Memory.wf s.img
  /-- "It never exceeds 8192" (10_state R29) -/
  ilenMax : s.ilen.toNat ≤ imageSize
  /-- ILEN counts leading bytes "that hold a loaded or encoded image" (10_state R29): each has been written -/
  ilenWritten : ∀ x, x < s.ilen.toNat → (written s.img x).isSome
  /-- the registers of P below min(NP,112) hold a value, the others none (10_state R26) -/
  pLength : s.p.length = min s.np.toNat capacity
  /-- the same of A (10_state R26) -/
  aLength : s.a.length = min s.na.toNat capacity
  /-- names of P (10_state R21) -/
  pNames : NamesFit (s.p.map ProgramRecord.name)
  /-- names of A (10_state R23) -/
  aNames : NamesFit (s.a.map AlarmRecord.name)
  /-- STATUS bits 6:5 "read as 0" (10_state R31) -/
  reservedZero : statusReserved s.status = 0
  /-- ERR "6 to 15 never occur" (10_state R31) -/
  errCode : (statusErr s.status).toNat ≤ 5
  /-- SERR is 1 "once any command has ended with ERR ≠ 0" (10_state R31) -/
  errSticky : statusErr s.status ≠ 0 → statusSerr s.status = true
  /-- ERRIDX is 0 on success (10_state R32) -/
  errIdxZero : statusErr s.status = 0 → s.erridx = 0

/-- "SERR = 0 at the end": no command since reset has ended in an error (10_state R31). -/
def NoCommandFailed (s : State) : Prop := statusSerr s.status = false

/-- A program record ENCODE accepts: "well-formed for this block" (40_encoder R131), in the rule's own terms. -/
def ProgramWellFormed (r : ProgramRecord) : Prop := r.name.head? ≠ some 0xFF ∧ r.temperature.toNat ≤ 482

/-- The same of an alarm record (40_encoder R131). -/
def AlarmWellFormed (r : AlarmRecord) : Prop := r.name.head? ≠ some 0xFF ∧ r.temperature.toNat ≤ 482

/-- `t` is `s` after the error entry with this code and `info`: STATUS.ERR, STATUS.SERR and ERRIDX written, "Every other
piece of state is exactly as before the command" (60_exceptions R238). -/
def ErrorEntry (s t : State) (code : BitVec 4) (info : Byte) : Prop :=
  t = { s with status := t.status, erridx := info } ∧
  statusErr t.status = code ∧ statusSerr t.status = true ∧
  statusCsok t.status = statusCsok s.status ∧ statusReserved t.status = statusReserved s.status

/-- What a successful command does to STATUS and ERRIDX besides CSOK: ERR and ERRIDX 0, SERR and the reserved bits as
before (10_state R35). -/
def SuccessFlags (s t : State) : Prop :=
  statusErr t.status = 0 ∧ t.erridx = 0 ∧
  statusSerr t.status = statusSerr s.status ∧ statusReserved t.status = statusReserved s.status

/-- The 36 bytes of the slot `sl` of block `b`, byte `k` at `256·b + 36·s + k` (20_memory R54). -/
def slotBytes (s : State) (b sl : Nat) : List Byte :=
  (List.range 36).map fun k => s.imgByte (256 * b + 36 * sl + k)

/-- The sum of the first 35 bytes of the entry at address `x`, modulo 256 (42_checksum R211). -/
def imageSum (s : State) (x : Nat) : Byte :=
  BitVec.ofNat 8 ((List.range 35).map fun k => (s.imgByte (x + k)).toNat).sum

/-- What a slot decodes to: the sentinel first, then the section's unpacking (41_decoder R180). -/
def slotRecord {α : Type} (unpack : List Byte → Option α) (e : List Byte) : Option α :=
  if e.head? = some 0xFF then none else unpack e

/-- The lists and counts ENCODE works on fit: both counts are at most 112 and the registers below them hold a value
(40_encoder R141, 10_state R26). -/
def ListsFit (s : State) : Prop :=
  s.p.length = s.np.toNat ∧ s.a.length = s.na.toNat ∧ s.np.toNat ≤ 112 ∧ s.na.toNat ≤ 112

/-- `ListsFit`, and every record is well-formed: then "ENCODE cannot fail" (40_encoder R141). -/
def EncodeAccepts (s : State) : Prop :=
  ListsFit s ∧ (∀ r ∈ s.p, ProgramWellFormed r) ∧ ∀ r ∈ s.a, AlarmWellFormed r

/-- The conditions of the round trip on a name, for a field of `w` bytes (41_decoder R182, items i to iv). -/
def NameSurvives (w : Nat) (n : List Byte) : Prop :=
  1 ≤ n.length ∧ n.length ≤ w ∧ 0x00 ∉ n ∧
  (∀ v, n.head? = some v → v ∉ ws ∧ v ≠ 0xFF) ∧ ∀ v, n.getLast? = some v → v ∉ ws

/-- The conditions of the round trip on a program record (41_decoder R182, items i to vi). -/
def ProgramSurvives (r : ProgramRecord) : Prop :=
  NameSurvives 26 r.name ∧ r.temperature.toNat ≤ 482 ∧
  r.powerLevel.toNat < 4 ∧ r.timerStart.toNat < 3 ∧ r.afterTimer.toNat < 4

/-- The conditions of the round trip on an alarm record (41_decoder R182, items i to v). -/
def AlarmSurvives (r : AlarmRecord) : Prop :=
  NameSurvives 20 r.name ∧ r.temperature.toNat ≤ 482

/-- `NORM(r)`: off, and a duration of 0:0:0, both read back as off with zeros (41_decoder R182). -/
def normTimer (r : ProgramRecord) : ProgramRecord :=
  if r.timerOff = true ∨ (r.hours = 0 ∧ r.minutes = 0 ∧ r.seconds = 0) then
    { r with timerOff := true, hours := 0, minutes := 0, seconds := 0 }
  else r

end Sys2Proof
end

