-- ==== Sys2Proof/Certificates/Slice0/Obligations.lean ====
section
/-! DEFINITION. The statements for the provers, from the numbered rules of spec/. -/

open Sys2Proof Sys2Proof.Machine

/-! ### Command words -/

/-- 30_encoding R104 to R106: no bit of a command's encoding is dropped. -/
def Obligations.DecodeOfEncodeIsIdentity : Prop :=
  ∀ i : Instr, i.wellFormed = true → decodeWord (encodeWord i) = .ok i

/-- 30_encoding R105: a word has one meaning, and it is the encoding of what it decodes to. -/
def Obligations.DecodedWordsAreEncodings : Prop :=
  ∀ (w : CmdWord) (i : Instr), decodeWord w = .ok i → i.wellFormed = true ∧ encodeWord i = w

/-- 30_encoding R105, R106: which words select which command, by match and mask, and the fields of EA. -/
def Obligations.CommandMapSelectsByMatchAndMask : Prop :=
  ∀ w : CmdWord,
    (decodeWord w = .ok .encode ↔ w &&& 0xFFFF = 0x0100) ∧
    (decodeWord w = .ok .decode ↔ w &&& 0xFFFF = 0x0200) ∧
    (∀ (b : BitVec 5) (sl : BitVec 3), decodeWord w = .ok (.csgen b sl) ↔
      w &&& 0xFF00 = 0x0300 ∧ sl ≠ 7 ∧ b.toNat = w.toNat % 256 / 8 ∧ sl.toNat = w.toNat % 8) ∧
    (∀ (b : BitVec 5) (sl : BitVec 3), decodeWord w = .ok (.csvfy b sl) ↔
      w &&& 0xFF00 = 0x0400 ∧ sl ≠ 7 ∧ b.toNat = w.toNat % 256 / 8 ∧ sl.toNat = w.toNat % 8)

/-- 95_test_vectors 2.8: command words written out from the encoding. -/
def Obligations.SpecWordsDecodeAsListed : Prop :=
  decodeTableWord 16 0x0100 = some .encode ∧ decodeTableWord 16 0x0200 = some .decode ∧
  decodeTableWord 16 0x0300 = some (.csgen 0 0) ∧ decodeTableWord 16 0x0306 = some (.csgen 0 6) ∧
  decodeTableWord 16 0x0380 = some (.csgen 16 0) ∧ decodeTableWord 16 0x048B = some (.csvfy 17 3) ∧
  decodeTableWord 16 0x04FE = some (.csvfy 31 6) ∧ decodeTableWord 16 0x0000 = none ∧
  decodeTableWord 16 0x0101 = none ∧ decodeTableWord 16 0x0307 = none ∧ decodeTableWord 16 0xFFFF = none

/-- 30_encoding R107, 60_exceptions R235: exactly these words select no command, and each ends with IllegalCommand, code 5
and `info` 0x00, touching nothing but STATUS and ERRIDX. -/
def Obligations.IllegalWordsRaiseIllegalCommand : Prop :=
  ∀ (w : CmdWord) (s : State),
    ((∀ i, decodeWord w ≠ .ok i) ↔
      (w.toNat / 256 = 0 ∨ 5 ≤ w.toNat / 256 ∨
       ((w.toNat / 256 = 1 ∨ w.toNat / 256 = 2) ∧ w.toNat % 256 ≠ 0) ∨
       ((w.toNat / 256 = 3 ∨ w.toNat / 256 = 4) ∧ w.toNat % 8 = 7))) ∧
    ((∀ i, decodeWord w ≠ .ok i) → ∃ t, perform (.cmd w) s = .next t ∧ ErrorEntry s t 5 0x00)

/-- 20_memory R77, through the model's inbox (log entries 2 and 7): a step whose transaction writes a word that decodes
runs that command, on the state without that transaction and without the previous reply. -/
def Obligations.StepRunsTheDecodedCommand : Prop :=
  (∀ (s : State) (w : CmdWord) (rest : List Transaction) (i : Instr),
    s.inbox = .cmd w :: rest → decodeWord w = .ok i →
    step s = exec i { s with inbox := rest, reply := none }) ∧
  ∀ (s : State) (nbits w : Nat) (i : Instr), decodeTableWord nbits w = some i →
    step (s.withFetchWord nbits w) = exec i { s with reply := none }

/-! ### Every command ends, and how -/

/-- 60_exceptions R230: success or one of the five errors; no command stops the machine. -/
def Obligations.EveryCommandEndsInOneOfSixOutcomes : Prop :=
  ∀ (i : Instr) (s : State), ∃ t, exec i s = .next t ∧ (statusErr t.status).toNat ≤ 5

/-- 60_exceptions R238: `raise E(info)` writes STATUS.ERR, STATUS.SERR and ERRIDX and nothing else, and a command that
ends in an error, or a word that selects none, has done exactly that. -/
def Obligations.ErrorsChangeOnlyStatusAndErridx : Prop :=
  (∀ (e : BlockError) (info : Byte) (s : State), ErrorEntry s (raise e info s) e.code info) ∧
  (∀ (i : Instr) (s t : State), exec i s = .next t → statusErr t.status ≠ 0 →
    ∃ (e : BlockError) (info : Byte), t = raise e info s ∧ ErrorEntry s t e.code info) ∧
  ∀ (w : CmdWord) (s t : State), perform (.cmd w) s = .next t → statusErr t.status ≠ 0 →
    ∃ (e : BlockError) (info : Byte), t = raise e info s ∧ ErrorEntry s t e.code info

/-- 10_state R35, the table's four rows of success, and of its row of errors SERR, CSOK and CSVAL; the code and the
`info` of each error are in the statements on the errors. -/
def Obligations.FlagEffectsByCommand : Prop :=
  ∀ (i : Instr) (s t : State), exec i s = .next t →
    (statusErr t.status = 0 →
      SuccessFlags s t ∧
      (i = .encode ∨ i = .decode → statusCsok t.status = statusCsok s.status ∧ t.csval = s.csval) ∧
      (∀ b sl, i = .csgen b sl → statusCsok t.status = statusCsok s.status ∧ t.csval = imageSum s (256 * b.toNat + 36 * sl.toNat)) ∧
      (∀ b sl, i = .csvfy b sl →
        t.csval = imageSum s (256 * b.toNat + 36 * sl.toNat) ∧
        (statusCsok t.status = true ↔
          s.imgByte (256 * b.toNat + 36 * sl.toNat + 35) = imageSum s (256 * b.toNat + 36 * sl.toNat)))) ∧
    (statusErr t.status ≠ 0 →
      statusSerr t.status = true ∧ statusCsok t.status = statusCsok s.status ∧ t.csval = s.csval)

/-- 10_state R35: "No command reads a flag". Two states that differ only in STATUS, ERRIDX and CSVAL. -/
def Obligations.NoCommandReadsAFlag : Prop :=
  ∀ (i : Instr) (s : State) (st : BitVec 8) (ei cv : Byte), ∃ t t',
    exec i s = .next t ∧ exec i { s with status := st, erridx := ei, csval := cv } = .next t' ∧
    t' = { t with status := t'.status, csval := t'.csval } ∧
    statusErr t'.status = statusErr t.status ∧
    ∀ (b : BitVec 5) (sl : BitVec 3), sl ≠ 7 →
      (i = .csgen b sl ∨ i = .csvfy b sl → t'.csval = t.csval) ∧
      (i = .csvfy b sl → statusCsok t'.status = statusCsok t.status)

/-- 10_state R31: SERR is "never cleared by a command", nor by any other transaction than reset. -/
def Obligations.OnlyResetClearsSerr : Prop :=
  ∀ s t : State, step s = .next t → s.inbox.head? ≠ some .reset →
    statusSerr s.status = true → statusSerr t.status = true

/-- 10_state R31: SERR = 0 at the end of a run without a reset means that no command of the run failed. -/
def Obligations.SerrZeroMeansNoCommandFailed : Prop :=
  ∀ (n k : Nat) (s t : State), StateInv s → .reset ∉ s.inbox → k ≤ n →
    core.run n s = .next t → NoCommandFailed t →
    ∃ u : State, core.run k s = .next u ∧ statusErr u.status = 0

/-! ### The five errors -/

/-- 60_exceptions R231: FormatError, by DECODE only, exactly when ILEN < 8192, with `info` 0x00. -/
def Obligations.FormatErrorExactlyWhenImageShort : Prop :=
  ∀ (i : Instr) (s t : State), exec i s = .next t →
    (statusErr t.status = 1 ↔ i = .decode ∧ s.ilen.toNat < 8192) ∧
    (statusErr t.status = 1 → t.erridx = 0x00)

/-- 60_exceptions R232: CapacityError, by ENCODE only, the program list first. -/
def Obligations.CapacityErrorExactlyWhenCountTooLarge : Prop :=
  (∀ s : State, s.np.toNat > 112 → ∃ t, exec .encode s = .next t ∧ ErrorEntry s t 2 0x00) ∧
  (∀ s : State, ¬ s.np.toNat > 112 → s.na.toNat > 112 → ∃ t, exec .encode s = .next t ∧ ErrorEntry s t 2 0x80) ∧
  ∀ (i : Instr) (s t : State), exec i s = .next t → statusErr t.status = 2 →
    i = .encode ∧ (s.np.toNat > 112 ∨ s.na.toNat > 112)

/-- 60_exceptions R233, R234, R237 and 40_encoder R131: the first record that fails, programs before alarms, NameError
before DomainError in one record, its index in ERRIDX with bit 7 the list. -/
def Obligations.EncodeReportsTheFirstBadRecord : Prop :=
  ∀ s : State, ListsFit s →
    (∀ (k : Nat) (r : ProgramRecord), s.p[k]? = some r → (∀ q ∈ s.p.take k, ProgramWellFormed q) →
      (r.name.head? = some 0xFF →
        ∃ t, exec .encode s = .next t ∧ ErrorEntry s t 3 (BitVec.ofNat 8 k)) ∧
      (r.name.head? ≠ some 0xFF → r.temperature.toNat > 482 →
        ∃ t, exec .encode s = .next t ∧ ErrorEntry s t 4 (BitVec.ofNat 8 k))) ∧
    (∀ (k : Nat) (r : AlarmRecord), s.a[k]? = some r → (∀ q ∈ s.p, ProgramWellFormed q) →
      (∀ q ∈ s.a.take k, AlarmWellFormed q) →
      (r.name.head? = some 0xFF →
        ∃ t, exec .encode s = .next t ∧ ErrorEntry s t 3 (BitVec.ofNat 8 (128 + k))) ∧
      (r.name.head? ≠ some 0xFF → r.temperature.toNat > 482 →
        ∃ t, exec .encode s = .next t ∧ ErrorEntry s t 4 (BitVec.ofNat 8 (128 + k))))

/-- 60_exceptions R233: NameError, by ENCODE only, for a record below its count whose name begins with 0xFF, named by
ERRIDX. -/
def Obligations.NameErrorNamesABadName : Prop :=
  ∀ (i : Instr) (s t : State), exec i s = .next t → statusErr t.status = 3 →
    i = .encode ∧
    ((∃ k r, k < s.np.toNat ∧ s.p[k]? = some r ∧ r.name.head? = some 0xFF ∧ t.erridx = BitVec.ofNat 8 k) ∨
     (∃ k r, k < s.na.toNat ∧ s.a[k]? = some r ∧ r.name.head? = some 0xFF ∧ t.erridx = 0x80 ||| BitVec.ofNat 8 k))

/-- 60_exceptions R234: DomainError, by ENCODE only, for a record below its count with a temperature above 482, named by
ERRIDX. -/
def Obligations.DomainErrorNamesABadTemperature : Prop :=
  ∀ (i : Instr) (s t : State), exec i s = .next t → statusErr t.status = 4 →
    i = .encode ∧
    ((∃ k r, k < s.np.toNat ∧ s.p[k]? = some r ∧ r.temperature.toNat > 482 ∧ t.erridx = BitVec.ofNat 8 k) ∨
     (∃ k r, k < s.na.toNat ∧ s.a[k]? = some r ∧ r.temperature.toNat > 482 ∧ t.erridx = 0x80 ||| BitVec.ofNat 8 k))

/-! ### Entry addresses -/

/-- 20_memory R54, R55: where record `i` stands, inside its section and its block. -/
def Obligations.RecordsStandInTheirSlots : Prop :=
  ∀ i : Nat, i < 112 →
    addrP i = 256 * (i / 7) + 36 * (i % 7) ∧ addrP i + 36 ≤ 4096 ∧
    addrA i = 256 * (16 + i / 7) + 36 * (i % 7) ∧ 4096 ≤ addrA i ∧ addrA i + 36 ≤ 8188 ∧
    addrP i / 256 = (addrP i + 35) / 256 ∧ addrA i / 256 = (addrA i + 35) / 256

/-- 20_memory R53, R65: no two entries overlap, and none covers a filler byte. -/
def Obligations.SlotsDoNotOverlap : Prop :=
  ∀ b sl b' sl' k k' : Nat, sl < 7 → sl' < 7 → k < 36 → k' < 36 →
    off b sl + k = off b' sl' + k' → b = b' ∧ sl = sl' ∧ k = k' ∧ (off b sl + k) % 256 < 252

/-! ### Micro-operations -/

/-- 40_encoder R132, 30_encoding R102: the fallback to ordinal 0. -/
def Obligations.UnrecognisedLabelsPackAsZero : Prop :=
  ∀ (code : Byte) (size : Nat), 1 ≤ size → size ≤ 4 →
    (ord code size).toNat = (if code.toNat < size then code.toNat else 0) ∧ (ord code size).toNat < size

/-- 41_decoder R174: the fallback to the first label; with codebook sizes 4, 3, 4 it acts on timerStart 3 only. -/
def Obligations.OrdinalsWithoutLabelFallBack : Prop :=
  ∀ (o : BitVec 2) (size : Nat),
    (lab o size).toNat = (if o.toNat < size then o.toNat else 0) ∧
    lab o 4 = o.setWidth 8 ∧ (lab o 3 ≠ o.setWidth 8 ↔ o = 3) ∧
    ∀ code : Byte, code.toNat < size → size ≤ 4 → lab (ord code size) size = code

/-- 40_encoder R133: the split of a temperature in the domain; the pair (0, 1) never comes out. -/
def Obligations.TemperatureSplit : Prop :=
  ∀ t : BitVec 9, t.toNat ≤ 482 →
    (tsplit t).1.toNat = (if t.toNat > 255 then t.toNat - 255 else t.toNat) ∧
    ((tsplit t).2 = true ↔ t.toNat > 255) ∧ tsplit t ≠ (0, true)

/-- 41_decoder R173: the join, without wrap, and that it undoes the split. -/
def Obligations.TemperatureJoin : Prop :=
  (∀ (tlo : Byte) (x : Bool), (tjoin tlo x).toNat = tlo.toNat + (if x then 255 else 0)) ∧
  ∀ t : BitVec 9, t.toNat ≤ 482 → tjoin (tsplit t).1 (tsplit t).2 = t

/-- 40_encoder R134, 41_decoder R175, 30_encoding R96, R98: the control byte's value, bit 4 zero; its fields by
arithmetic, bit 4 read by nobody; and the fields back. -/
def Obligations.ControlByteRoundTrip : Prop :=
  (∀ (x : Bool) (aft pl ts : BitVec 2),
    (ctrlpack x aft pl ts).toNat = (if x then 128 else 0) + 32 * aft.toNat + 4 * pl.toNat + ts.toNat ∧
    (ctrlpack x aft pl ts).getLsbD 4 = false ∧ ctrlunpack (ctrlpack x aft pl ts) = ⟨x, aft, pl, ts⟩) ∧
  ∀ c : Byte,
    ((ctrlunpack c).x = true ↔ 128 ≤ c.toNat) ∧ (ctrlunpack c).aft.toNat = c.toNat / 32 % 4 ∧
    (ctrlunpack c).pl.toNat = c.toNat / 4 % 4 ∧ (ctrlunpack c).ts.toNat = c.toNat % 4 ∧
    ctrlunpack (c ^^^ 0x10) = ctrlunpack c

/-- 40_encoder R135, 30_encoding R93: a field of exactly W bytes, the name left-justified, zeros after it. -/
def Obligations.NameFieldIsJustifiedAndPadded : Prop :=
  ∀ (name : List Byte) (w : Nat), (nameput name w).length = w ∧
    ∀ k, k < w → (nameput name w)[k]? = some (name.getD k 0x00)

/-- 41_decoder R171: the name ends at the first zero byte of the field, or at its end. -/
def Obligations.NameEndsAtTheFirstZero : Prop :=
  ∀ (e : List Byte) (w : Nat), w ≤ e.length →
    ∃ l, l ≤ w ∧ nameget e w = e.take l ∧ 0x00 ∉ nameget e w ∧ (l < w → e[l]? = some 0x00)

/-- 41_decoder R172, for every whitespace set: only whitespace goes, at the ends only, and all of it there. -/
def Obligations.TrimStripsBothEnds : Prop :=
  ∀ white n : List Byte, ∃ front back,
    n = front ++ trim white n ++ back ∧ (∀ v ∈ front, v ∈ white) ∧ (∀ v ∈ back, v ∈ white) ∧
    (∀ v, (trim white n).head? = some v → v ∉ white) ∧ ∀ v, (trim white n).getLast? = some v → v ∉ white

/-- 40_encoder R136, 41_decoder R176, 30_encoding R99: the timer bytes, and how they read back. -/
def Obligations.TimerBytesRoundTrip : Prop :=
  ∀ (o : Bool) (h m sec : Byte),
    timerenc o h m sec = (if o = true then (0, 0, 0) else (h, m, sec)) ∧
    ((timerdec h m sec).timerOff = true ↔ h = 0 ∧ m = 0 ∧ sec = 0) ∧
    (timerdec h m sec).hours = h ∧ (timerdec h m sec).minutes = m ∧ (timerdec h m sec).seconds = sec

/-- 40_encoder R137, 30_encoding R91: the program entry, byte by byte. -/
def Obligations.ProgramEntryLayout : Prop :=
  ∀ r : ProgramRecord, (packp r).length = 36 ∧
    (∀ k, k < 26 → (packp r)[k]? = some (r.name.getD k 0x00)) ∧
    (∀ k, 26 ≤ k → k < 30 → (packp r)[k]? = some 0x00) ∧
    (packp r)[30]? = some (tsplit r.temperature).1 ∧
    (packp r)[31]? = some (ctrlpack (tsplit r.temperature).2 (ord r.afterTimer 4) (ord r.powerLevel 4) (ord r.timerStart 3)) ∧
    (packp r)[32]? = some (if r.timerOff = true then 0 else r.hours) ∧
    (packp r)[33]? = some (if r.timerOff = true then 0 else r.minutes) ∧
    (packp r)[34]? = some (if r.timerOff = true then 0 else r.seconds) ∧
    (packp r)[35]? = some (csum (packp r))

/-- 40_encoder R138, 30_encoding R92, R97: the alarm entry, byte by byte. -/
def Obligations.AlarmEntryLayout : Prop :=
  ∀ r : AlarmRecord, (packa r).length = 36 ∧
    (∀ k, k < 20 → (packa r)[k]? = some (r.name.getD k 0x00)) ∧
    (∀ k, 20 ≤ k → k < 30 → (packa r)[k]? = some 0x00) ∧
    (packa r)[30]? = some (tsplit r.temperature).1 ∧
    (packa r)[31]? = some (if (tsplit r.temperature).2 = true then 0x80 else 0x00) ∧
    (∀ k, 32 ≤ k → k < 35 → (packa r)[k]? = some 0x00) ∧
    (packa r)[35]? = some (csum (packa r))

/-- 41_decoder R177, R174, for every whitespace set: nothing exactly for an empty name, else the record, and what its name
is like. -/
def Obligations.ProgramEntryUnpacks : Prop :=
  ∀ white e : List Byte,
    (trim white (nameget e 26) = [] → unpkp white e = none) ∧
    (trim white (nameget e 26) ≠ [] → ∃ r, unpkp white e = some r ∧
      r.name = trim white (nameget e 26) ∧
      r.temperature.toNat = (e.getD 30 0).toNat + (if 128 ≤ (e.getD 31 0).toNat then 255 else 0) ∧
      r.powerLevel.toNat = (e.getD 31 0).toNat / 4 % 4 ∧
      r.timerStart.toNat = (if (e.getD 31 0).toNat % 4 < 3 then (e.getD 31 0).toNat % 4 else 0) ∧
      r.afterTimer.toNat = (e.getD 31 0).toNat / 32 % 4 ∧
      (r.timerOff = true ↔ e.getD 32 0 = 0 ∧ e.getD 33 0 = 0 ∧ e.getD 34 0 = 0) ∧
      r.hours = e.getD 32 0 ∧ r.minutes = e.getD 33 0 ∧ r.seconds = e.getD 34 0) ∧
    ∀ r, unpkp white e = some r → 1 ≤ r.name.length ∧ r.name.length ≤ 26 ∧ 0x00 ∉ r.name ∧
      ∀ v, r.name.head? = some v ∨ r.name.getLast? = some v → v ∉ white

/-- 41_decoder R178, for every whitespace set: nothing exactly for an empty name, else the record; of byte 31 bit 7 only;
and what its name is like. -/
def Obligations.AlarmEntryUnpacks : Prop :=
  ∀ white e : List Byte,
    (trim white (nameget e 20) = [] → unpka white e = none) ∧
    (trim white (nameget e 20) ≠ [] → ∃ r, unpka white e = some r ∧
      r.name = trim white (nameget e 20) ∧
      r.temperature.toNat = (e.getD 30 0).toNat + (if 128 ≤ (e.getD 31 0).toNat then 255 else 0)) ∧
    ∀ r, unpka white e = some r → 1 ≤ r.name.length ∧ r.name.length ≤ 20 ∧ 0x00 ∉ r.name ∧
      ∀ v, r.name.head? = some v ∨ r.name.getLast? = some v → v ∉ white

/-- 41_decoder R182: a program record that meets the conditions comes back, its timer normalised; WS as 00_scope R6 gives it
(log entry 5). -/
def Obligations.ProgramRecordSurvivesRoundTrip : Prop :=
  ∀ r : ProgramRecord, ProgramSurvives r → unpkp ws (packp r) = some (normTimer r)

/-- 41_decoder R182: an alarm record that meets the conditions comes back; WS as 00_scope R6 gives it (log entry 5). -/
def Obligations.AlarmRecordSurvivesRoundTrip : Prop :=
  ∀ r : AlarmRecord, AlarmSurvives r → unpka ws (packa r) = some r

/-- 41_decoder R182, the general law: what packing then unpacking any record with a temperature in the domain gives,
with no condition on its name, its label codes or its timer; WS as 00_scope R6 gives it (log entry 5). -/
def Obligations.ProgramRoundTripGeneralLaw : Prop :=
  ∀ r : ProgramRecord, r.temperature.toNat ≤ 482 →
    (trim ws (nameget (packp r) 26) = [] → unpkp ws (packp r) = none) ∧
    (trim ws (nameget (packp r) 26) ≠ [] → unpkp ws (packp r) = some { normTimer r with
      name := trim ws (nameget (packp r) 26)
      powerLevel := (ord r.powerLevel 4).setWidth 8
      timerStart := (ord r.timerStart 3).setWidth 8
      afterTimer := (ord r.afterTimer 4).setWidth 8 })

/-! ### The checksum -/

/-- 42_checksum R211: the sum modulo 256 of the first 35 bytes, whatever follows and in whatever order they stand. -/
def Obligations.ChecksumIsTheAdditiveSum : Prop :=
  (∀ e : List Byte, 35 ≤ e.length →
    (csum e).toNat = ((List.range 35).map fun k => (e.getD k 0).toNat).sum % 256) ∧
  ∀ e e' : List Byte, (e.take 35).Perm (e'.take 35) → csum e = csum e'

/-- 42_checksum R214 (a): changing exactly one of the bytes 0 to 34 changes the sum. -/
def Obligations.OneChangedByteChangesTheChecksum : Prop :=
  ∀ (e : List Byte) (k : Nat) (v : Byte), k < 35 → k < e.length → e[k]? ≠ some v → csum (e.set k v) ≠ csum e

/-- 42_checksum R212: what CSGEN does, all of it, and that slot 7 is refused with IllegalCommand. -/
def Obligations.CsgenStoresTheChecksum : Prop :=
  ∀ (b : BitVec 5) (sl : BitVec 3) (s : State),
    (sl ≠ 7 → ∃ t, exec (.csgen b sl) s = .next t ∧
      t = { s with img := t.img, csval := imageSum s (256 * b.toNat + 36 * sl.toNat), status := t.status, erridx := 0 } ∧
      SuccessFlags s t ∧ statusCsok t.status = statusCsok s.status ∧
      t.imgByte (256 * b.toNat + 36 * sl.toNat + 35) = imageSum s (256 * b.toNat + 36 * sl.toNat) ∧
      ∀ y, y ≠ 256 * b.toNat + 36 * sl.toNat + 35 → t.imgByte y = s.imgByte y) ∧
    (sl = 7 → ∃ t, exec (.csgen b sl) s = .next t ∧ ErrorEntry s t 5 0x00)

/-- 42_checksum R213: what CSVFY does, all of it, IMG untouched, and that slot 7 is refused with IllegalCommand. -/
def Obligations.CsvfyComparesTheChecksum : Prop :=
  ∀ (b : BitVec 5) (sl : BitVec 3) (s : State),
    (sl ≠ 7 → ∃ t, exec (.csvfy b sl) s = .next t ∧
      t = { s with csval := imageSum s (256 * b.toNat + 36 * sl.toNat), status := t.status, erridx := 0 } ∧
      SuccessFlags s t ∧
      (statusCsok t.status = true ↔
        s.imgByte (256 * b.toNat + 36 * sl.toNat + 35) = imageSum s (256 * b.toNat + 36 * sl.toNat))) ∧
    (sl = 7 → ∃ t, exec (.csvfy b sl) s = .next t ∧ ErrorEntry s t 5 0x00)

/-- 42_checksum R213: after any CSGEN of a slot, CSVFY of it gives CSOK = 1, and CSGEN again changes no byte. -/
def Obligations.CsgenRepairsTheSlot : Prop :=
  ∀ (b : BitVec 5) (sl : BitVec 3) (s : State), sl ≠ 7 → ∃ t u v,
    exec (.csgen b sl) s = .next t ∧ exec (.csvfy b sl) t = .next u ∧ statusCsok u.status = true ∧
    exec (.csgen b sl) t = .next v ∧ v.csval = t.csval ∧ ∀ y, v.imgByte y = t.imgByte y

/-- 42_checksum R214 (a), 70_reset R269: when a slot verifies, a host patch of one of its bytes 0 to 34 to another value
makes CSVFY give CSOK = 0, until CSGEN. -/
def Obligations.PatchedSlotFailsVerification : Prop :=
  ∀ (b : BitVec 5) (sl : BitVec 3) (s : State) (x : BitVec 13) (v : Byte) (k : Nat),
    sl ≠ 7 → k < 35 → x.toNat = 256 * b.toNat + 36 * sl.toNat + k →
    s.imgByte (256 * b.toNat + 36 * sl.toNat + 35) = imageSum s (256 * b.toNat + 36 * sl.toNat) →
    v ≠ s.imgByte x.toNat →
    ∃ t u, perform (.wrimg x v) s = .next t ∧ exec (.csvfy b sl) t = .next u ∧ statusCsok u.status = false

/-! ### ENCODE -/

/-- 40_encoder R141, R142 (a), 20_memory R57: ENCODE of lists it accepts, all of its effect: every byte of IMG by slot and
filler, ILEN, ERR, ERRIDX, and everything else unchanged. -/
def Obligations.EncodeWritesTheImage : Prop :=
  ∀ s : State, EncodeAccepts s → ∃ t, exec .encode s = .next t ∧
    t = { s with img := t.img, ilen := 8192, status := t.status, erridx := 0 } ∧
    SuccessFlags s t ∧ statusCsok t.status = statusCsok s.status ∧
    (∀ b sl k, b < 16 → sl < 7 → k < 36 → t.imgByte (256 * b + 36 * sl + k) =
      match s.p[7 * b + sl]? with
      | some r => (packp r).getD k 0
      | none => 0xFF) ∧
    (∀ b sl k, 16 ≤ b → b < 32 → sl < 7 → k < 36 → t.imgByte (256 * b + 36 * sl + k) =
      match s.a[7 * (b - 16) + sl]? with
      | some r => (packa r).getD k 0
      | none => 0xFF) ∧
    (∀ b k, b < 32 → 252 ≤ k → k < 256 → t.imgByte (256 * b + k) = 0xFF) ∧
    ∀ y, 8192 ≤ y → t.imgByte y = s.imgByte y

/-- 40_encoder R142 (e): a successful ENCODE's image is a function of the lists alone. -/
def Obligations.EncodedImageDependsOnListsOnly : Prop :=
  ∀ s s' t : State, EncodeAccepts s → s'.p = s.p → s'.np = s.np → s'.a = s.a → s'.na = s.na →
    exec .encode s = .next t → ∃ t', exec .encode s' = .next t' ∧ statusErr t'.status = 0 ∧ t'.ilen = t.ilen ∧
      ∀ y, y < 8192 → t'.imgByte y = t.imgByte y

/-- 40_encoder R142 (c), CF §8.4: after ENCODE a slot begins with 0xFF exactly when no record stands in it. -/
def Obligations.SentinelMarksExactlyTheEmptySlots : Prop :=
  ∀ s t : State, EncodeAccepts s → exec .encode s = .next t → ∀ b sl, b < 16 → sl < 7 →
    (t.imgByte (256 * b + 36 * sl) = 0xFF ↔ s.np.toNat ≤ 7 * b + sl) ∧
    (t.imgByte (4096 + 256 * b + 36 * sl) = 0xFF ↔ s.na.toNat ≤ 7 * b + sl)

/-- 40_encoder R142 (b), 42_checksum R213: every slot ENCODE filled verifies; an empty one does not, with sum 0xDD. -/
def Obligations.EncodedSlotsVerify : Prop :=
  ∀ s t : State, EncodeAccepts s → exec .encode s = .next t →
    ∀ (b : BitVec 5) (sl : BitVec 3), sl ≠ 7 → ∃ u, exec (.csvfy b sl) t = .next u ∧
      (statusCsok u.status = true ↔
        if b.toNat < 16 then 7 * b.toNat + sl.toNat < s.np.toNat
        else 7 * (b.toNat - 16) + sl.toNat < s.na.toNat) ∧
      (statusCsok u.status = false → u.csval = 0xDD)

/-! ### DECODE -/

/-- 41_decoder R180: what DECODE does, all of it: the slots of each section in ascending order, compacted, and the
FormatError. WS is at the value of 00_scope R6, the model's `ws` (log entry 5). -/
def Obligations.DecodeUnpacksEverySlotInOrder : Prop :=
  ∀ s : State,
    (s.ilen.toNat < 8192 → ∃ t, exec .decode s = .next t ∧ ErrorEntry s t 1 0x00) ∧
    (8192 ≤ s.ilen.toNat → ∃ t, exec .decode s = .next t ∧
      t = { s with p := t.p, np := t.np, a := t.a, na := t.na, status := t.status, erridx := 0 } ∧
      SuccessFlags s t ∧ statusCsok t.status = statusCsok s.status ∧
      t.p = (List.range 16).flatMap (fun b => (List.range 7).filterMap fun sl =>
        slotRecord (unpkp ws) (slotBytes s b sl)) ∧
      t.a = (List.range 16).flatMap (fun b => (List.range 7).filterMap fun sl =>
        slotRecord (unpka ws) (slotBytes s (16 + b) sl)) ∧
      t.np.toNat = t.p.length ∧ t.na.toNat = t.a.length ∧ t.np.toNat ≤ 112 ∧ t.na.toNat ≤ 112)

/-- 41_decoder R181, CF §8.7: no result of DECODE depends on byte 35 of any entry or on CSOK, and CSVAL and CSOK are not
written. -/
def Obligations.DecodeIgnoresTheChecksumByte : Prop :=
  ∀ (s : State) (m : Memory),
    (∀ y, (∀ b sl, b < 32 → sl < 7 → y ≠ 256 * b + 36 * sl + 35) →
      State.imgByte { s with img := m } y = s.imgByte y) →
    ∃ t t', exec .decode s = .next t ∧ exec .decode { s with img := m } = .next t' ∧
      t' = { t with img := m } ∧ t.csval = s.csval ∧ statusCsok t.status = statusCsok s.status ∧
      ∀ ok : Bool, ∃ u, exec .decode (s.setCsok ok) = .next u ∧
        u = { t with status := u.status } ∧ statusErr u.status = statusErr t.status

/-- 20_memory R62, 30_encoding R108, R103: DECODE's result depends on these bytes of each entry only. -/
def Obligations.DecodeIgnoresUnusedAndFillerBytes : Prop :=
  ∀ (s : State) (m : Memory),
    (∀ b sl k, b < 16 → sl < 7 → (k < 26 ∨ 30 ≤ k ∧ k < 35) →
      State.imgByte { s with img := m } (256 * b + 36 * sl + k) = s.imgByte (256 * b + 36 * sl + k)) →
    (∀ b sl k, 16 ≤ b → b < 32 → sl < 7 → (k < 20 ∨ 30 ≤ k ∧ k < 32) →
      State.imgByte { s with img := m } (256 * b + 36 * sl + k) = s.imgByte (256 * b + 36 * sl + k)) →
    ∃ t t', exec .decode s = .next t ∧ exec .decode { s with img := m } = .next t' ∧ t' = { t with img := m }

/-- 41_decoder R184: for every content of IMG with ILEN = 8192 DECODE succeeds within these bounds; it looks at no
address outside [0, 8188) and has no side effect beyond the record files, the counts, STATUS.ERR and ERRIDX. The rule
is the spec's own inference from R171 to R180; WS is at the value of 00_scope R6, the model's `ws` (log entry 5). -/
def Obligations.DecodeIsTotalWithinBounds : Prop :=
  ∀ s : State, s.ilen.toNat = 8192 → ∃ t, exec .decode s = .next t ∧ statusErr t.status = 0 ∧
    t.np.toNat ≤ 112 ∧ t.na.toNat ≤ 112 ∧
    (∀ r ∈ t.p, 1 ≤ r.name.length ∧ r.name.length ≤ 26 ∧ 0x00 ∉ r.name ∧
      (∀ v, r.name.head? = some v ∨ r.name.getLast? = some v → v ∉ ws) ∧ r.temperature.toNat ≤ 510 ∧
      r.powerLevel.toNat < 4 ∧ r.timerStart.toNat < 3 ∧ r.afterTimer.toNat < 4 ∧
      (r.timerOff = true ↔ r.hours = 0 ∧ r.minutes = 0 ∧ r.seconds = 0)) ∧
    (∀ r ∈ t.a, 1 ≤ r.name.length ∧ r.name.length ≤ 20 ∧ 0x00 ∉ r.name ∧
      (∀ v, r.name.head? = some v ∨ r.name.getLast? = some v → v ∉ ws) ∧ r.temperature.toNat ≤ 510) ∧
    t = { s with p := t.p, np := t.np, a := t.a, na := t.na, status := t.status, erridx := t.erridx } ∧
    SuccessFlags s t ∧ statusCsok t.status = statusCsok s.status ∧
    ∀ m : Memory, (∀ y, y < 8188 → State.imgByte { s with img := m } y = s.imgByte y) →
      exec .decode { s with img := m } = .next { t with img := m }

/-- 41_decoder R182, CF §8.1: ENCODE followed by DECODE gives the lists back, timers normalised, when every record meets
the conditions; WS as 00_scope R6 gives it (log entry 5). -/
def Obligations.EncodeThenDecodeGivesTheListsBack : Prop :=
  ∀ s : State, ListsFit s → (∀ r ∈ s.p, ProgramSurvives r) → (∀ r ∈ s.a, AlarmSurvives r) →
    ∃ t u, exec .encode s = .next t ∧ exec .decode t = .next u ∧
      u.p = s.p.map normTimer ∧ u.a = s.a ∧ u.np = s.np ∧ u.na = s.na ∧
      (∀ y, u.imgByte y = t.imgByte y) ∧ statusErr u.status = 0

/-- 41_decoder R183 (g): DECODE twice on an unchanged IMG gives the same record files. -/
def Obligations.DecodeTwiceGivesTheSameLists : Prop :=
  ∀ s t : State, exec .decode s = .next t → ∃ u, exec .decode t = .next u ∧
    u.p = t.p ∧ u.np = t.np ∧ u.a = t.a ∧ u.na = t.na ∧ statusErr u.status = statusErr t.status

/-! ### Host transactions -/

/-- 20_memory R70: H-SETP. A list that cannot be presented is refused (how, is the model's: Refusal.notPresentable). -/
def Obligations.SetpReplacesTheProgramList : Prop :=
  ∀ (l : List ProgramRecord) (s : State),
    (l.length ≤ 255 → (∀ r ∈ l, r.name.length ≤ Config.nameInMax) → ∃ t, perform (.setp l) s = .next t ∧
      t = { s with p := t.p, np := t.np } ∧ t.np.toNat = l.length ∧ t.p.length = min l.length 112 ∧
      ∀ i, i < 112 → t.p[i]? = l[i]?) ∧
    (255 < l.length ∨ (∃ r ∈ l, Config.nameInMax < r.name.length) → perform (.setp l) s = .refused .notPresentable)

/-- 20_memory R71: H-SETA. -/
def Obligations.SetaReplacesTheAlarmList : Prop :=
  ∀ (l : List AlarmRecord) (s : State),
    (l.length ≤ 255 → (∀ r ∈ l, r.name.length ≤ Config.nameInMax) → ∃ t, perform (.seta l) s = .next t ∧
      t = { s with a := t.a, na := t.na } ∧ t.na.toNat = l.length ∧ t.a.length = min l.length 112 ∧
      ∀ i, i < 112 → t.a[i]? = l[i]?) ∧
    (255 < l.length ∨ (∃ r ∈ l, Config.nameInMax < r.name.length) → perform (.seta l) s = .refused .notPresentable)

/-- 20_memory R72, in states where the registers below the count hold a value (10_state R26): H-GETP and H-GETA. -/
def Obligations.RecordReadsReturnOrAreRefused : Prop :=
  ∀ (i : Nat) (s : State), s.p.length = min s.np.toNat 112 → s.a.length = min s.na.toNat 112 →
    (i < min s.np.toNat 112 → ∃ r, s.p[i]? = some r ∧
      perform (.getp i) s = .next { s with reply := some (.program r) }) ∧
    (min s.np.toNat 112 ≤ i → perform (.getp i) s = .refused .noRecordValue) ∧
    (i < min s.na.toNat 112 → ∃ r, s.a[i]? = some r ∧
      perform (.geta i) s = .next { s with reply := some (.alarm r) }) ∧
    (min s.na.toNat 112 ≤ i → perform (.geta i) s = .refused .noRecordValue)

/-- 20_memory R73: H-RDCSR returns the register's value and changes nothing; the reply is the model's (log entry 3). -/
def Obligations.CsrReadsHaveNoSideEffect : Prop :=
  ∀ (r : Csr) (s : State), ∃ v : BitVec 14,
    perform (.rdcsr r) s = .next { s with reply := some (.csr v) } ∧
    v.toNat = match r with
      | .np => s.np.toNat
      | .na => s.na.toNat
      | .ilen => s.ilen.toNat
      | .status => s.status.toNat
      | .erridx => s.erridx.toNat
      | .csval => s.csval.toNat

/-- 20_memory R74: H-LOADIMG with any number of bytes. -/
def Obligations.LoadimgKeepsTheFirst8192Bytes : Prop :=
  ∀ (bs : List Byte) (s : State), ∃ t, perform (.loadimg bs) s = .next t ∧
    t = { s with img := t.img, ilen := t.ilen } ∧ t.ilen.toNat = min bs.length 8192 ∧
    (∀ k, k < min bs.length 8192 → t.imgByte k = bs.getD k 0) ∧
    ∀ k, min bs.length 8192 ≤ k → t.imgByte k = s.imgByte k

/-- 20_memory R75, R76: H-WRIMG changes one byte and not ILEN; H-RDIMG then returns it, without side effects. -/
def Obligations.ImageByteAccess : Prop :=
  ∀ (x : BitVec 13) (v : Byte) (s : State),
    (∃ t, perform (.wrimg x v) s = .next t ∧ t = { s with img := t.img } ∧ t.imgByte x.toNat = v ∧
      ∀ y, y ≠ x.toNat → t.imgByte y = s.imgByte y) ∧
    perform (.rdimg x) s = .next { s with reply := some (.byte (s.imgByte x.toNat)) }

/-- 70_reset R260, 10_state R38, through the model's inbox; the counter of resets is the model's (log entry 1). -/
def Obligations.ResetFromAnyState : Prop :=
  ∀ (s : State) (rest : List Transaction), s.inbox = .reset :: rest → ∃ t, step s = .next t ∧
    t.p = [] ∧ t.np = 0 ∧ t.a = [] ∧ t.na = 0 ∧ t.ilen = 0 ∧ t.status = 0x00 ∧ t.erridx = 0x00 ∧ t.csval = 0x00 ∧
    t.inbox = rest ∧ t.reply = none ∧ ∀ y, t.imgByte y = Config.resetByte (s.resets + 1) y

/-! ### The invariant -/

/-- 10_state R38: the reset state is a good state. -/
def Obligations.ResetStateMeetsTheInvariant : Prop := StateInv State.reset

/-- 10_state R20, R26, R29, R31, R32, 20_memory R50: every step keeps the invariant, from every good state. -/
def Obligations.StepKeepsTheInvariant : Prop :=
  ∀ s t : State, StateInv s → step s = .next t → StateInv t
end

