-- ==== Sys2Proof/Laws/Flags.lean ====
section
/-! SUPPORT. What each update of STATUS does to each of its fields. -/

namespace Sys2Proof.Machine

variable (st : BitVec 8) (c : BitVec 4) (ok : Bool)

@[simp] theorem statusErr_setStatusErr : statusErr (setStatusErr st c) = c := by
  unfold statusErr setStatusErr
  ext i hi
  have : i = 0 ∨ i = 1 ∨ i = 2 ∨ i = 3 := by omega
  rcases this with rfl | rfl | rfl | rfl <;> simp

@[simp] theorem statusCsok_setStatusErr : statusCsok (setStatusErr st c) = statusCsok st := by
  simp [statusCsok, setStatusErr]

@[simp] theorem statusSerr_setStatusErr : statusSerr (setStatusErr st c) = statusSerr st := by
  simp [statusSerr, setStatusErr]

@[simp] theorem statusReserved_setStatusErr : statusReserved (setStatusErr st c) = statusReserved st := by
  unfold statusReserved setStatusErr
  ext i hi
  have : i = 0 ∨ i = 1 := by omega
  rcases this with rfl | rfl <;> simp

@[simp] theorem statusErr_setStatusCsok : statusErr (setStatusCsok st ok) = statusErr st := by
  revert st ok; decide +kernel

@[simp] theorem statusCsok_setStatusCsok : statusCsok (setStatusCsok st ok) = ok := by
  revert st ok; decide +kernel

@[simp] theorem statusSerr_setStatusCsok : statusSerr (setStatusCsok st ok) = statusSerr st := by
  revert st ok; decide +kernel

@[simp] theorem statusReserved_setStatusCsok : statusReserved (setStatusCsok st ok) = statusReserved st := by
  revert st ok; decide +kernel

@[simp] theorem statusErr_setStatusSerr : statusErr (setStatusSerr st) = statusErr st := by
  revert st; decide +kernel

@[simp] theorem statusCsok_setStatusSerr : statusCsok (setStatusSerr st) = statusCsok st := by
  revert st; decide +kernel

@[simp] theorem statusSerr_setStatusSerr : statusSerr (setStatusSerr st) = true := by
  revert st; decide +kernel

@[simp] theorem statusReserved_setStatusSerr : statusReserved (setStatusSerr st) = statusReserved st := by
  revert st; decide +kernel

/-- STATUS is made of its four fields (10_state R31). -/
theorem status_eq : st =
    BitVec.ofBool (statusSerr st) ++ statusReserved st ++ BitVec.ofBool (statusCsok st) ++ statusErr st := by
  revert st; decide +kernel

/-- Two values of STATUS that agree on the four fields are equal. -/
theorem status_ext {st st' : BitVec 8} (he : statusErr st = statusErr st') (hc : statusCsok st = statusCsok st')
    (hr : statusReserved st = statusReserved st') (hs : statusSerr st = statusSerr st') : st = st' := by
  rw [status_eq st, status_eq st', he, hc, hr, hs]

/-- No error has the code of success (60_exceptions R230). -/
theorem BlockError.code_ne_zero (e : BlockError) : e.code ≠ 0 := by cases e <;> decide

/-- "6 to 15 never occur" (10_state R31). -/
theorem BlockError.code_le_five (e : BlockError) : e.code.toNat ≤ 5 := by cases e <;> decide

/-- Different errors have different codes. -/
theorem BlockError.code_injective {e e' : BlockError} (h : e.code = e'.code) : e = e' := by
  revert h; cases e <;> cases e' <;> decide

end Sys2Proof.Machine
end

