-- ==== Sys2Proof/Laws/Memory.lean ====
section
/-! SUPPORT. Image memory: a read after a write, reads of sequences, and the canonical form. The laws of reads and writes
hold of every list of cells; only the canonical form's own lemmas assume it. -/

namespace Sys2Proof.Machine

@[simp] theorem fromAddr_nil (x : Nat) : fromAddr [] x = [] := rfl

theorem fromAddr_cons (c : Host.Cell) (r : Memory) (x : Nat) :
    fromAddr (c :: r) x = if c.1 < x then fromAddr r x else c :: r := by
  simp [fromAddr, List.dropWhile_cons]

/-- Two cuts in a row are the higher one. -/
theorem fromAddr_fromAddr (m : Memory) {x y : Nat} (h : x ≤ y) : fromAddr (fromAddr m x) y = fromAddr m y := by
  induction m with
  | nil => rfl
  | cons c r ih =>
    by_cases hx : c.1 < x
    · rw [fromAddr_cons, if_pos hx, ih, fromAddr_cons, if_pos (lt_of_lt_of_le hx h)]
    · rw [fromAddr_cons c r x, if_neg hx]

/-- A read at or above a cut does not see the cut. -/
theorem written_fromAddr (m : Memory) {x y : Nat} (h : x ≤ y) : written (fromAddr m x) y = written m y := by
  simp only [written, fromAddr_fromAddr m h]

@[simp] theorem written_nil (x : Nat) : written [] x = none := rfl

theorem written_cons (c : Host.Cell) (r : Memory) (x : Nat) :
    written (c :: r) x = if c.1 < x then written r x else if c.1 = x then some c.2 else none := by
  rw [written, fromAddr_cons]
  by_cases hc : c.1 < x
  · rw [if_pos hc, if_pos hc]; rfl
  · rw [if_neg hc, if_neg hc]

/-- What `overlay` leaves at an address at or above its base. -/
theorem written_overlay (vs : List Byte) : ∀ (m : Memory) (x y : Nat), x ≤ y →
    written (overlay m x vs) y = if y < x + vs.length then vs[y - x]? else written m y := by
  induction vs with
  | nil => intro m x y h; simp [overlay, Nat.not_lt.mpr h]
  | cons v vs ih =>
    intro m x y h
    rw [overlay, written_cons]
    rcases Nat.lt_or_eq_of_le h with hlt | rfl
    · obtain ⟨d, rfl⟩ : ∃ d, y = x + 1 + d := ⟨y - (x + 1), by omega⟩
      simp only [hlt, if_true]
      rw [ih _ _ _ (by omega), written_fromAddr m (by omega)]
      have : x + 1 + d - x = (x + 1 + d - (x + 1)) + 1 := by omega
      rw [this, List.getElem?_cons_succ]
      simp only [List.length_cons]
      congr 1
      simp; omega
    · simp

/-- A read after a write: the byte written inside the range, what was there before outside it. -/
theorem written_writeSeq (m : Memory) (x y : Nat) (vs : List Byte) :
    written (writeSeq m x vs) y = if x ≤ y ∧ y < x + vs.length then vs[y - x]? else written m y := by
  have low : ∀ (m : Memory), (∀ c ∈ m.head?, x ≤ c.1) → y < x → written (overlay m x vs) y = written m y := by
    intro m hm hy
    have none_of : ∀ (c : Host.Cell) (r : Memory), x ≤ c.1 → written (c :: r) y = none := by
      intro c r hc; rw [written_cons, if_neg (by omega), if_neg (by omega)]
    cases vs with
    | nil => rfl
    | cons v vs =>
      rw [overlay, none_of (x, v) _ le_rfl]
      cases m with
      | nil => rfl
      | cons c r => rw [none_of c r (hm c (by simp))]
  induction m with
  | nil =>
    rw [writeSeq]
    by_cases hy : y < x
    · rw [low [] (by simp) hy, if_neg (by omega)]
    · rw [written_overlay vs _ _ _ (by omega)]; simp [Nat.le_of_not_lt hy]
  | cons c r ih =>
    rw [writeSeq]
    split
    · rename_i hc
      rw [written_cons, written_cons, ih]
      by_cases hy : c.1 < y
      · simp only [hy, if_true]
      · have : ¬(x ≤ y ∧ y < x + vs.length) := by omega
        simp only [hy, this, if_false]
    · rename_i hc
      by_cases hy : y < x
      · rw [low _ (by simp; omega) hy, if_neg (by omega)]
      · rw [written_overlay vs _ _ _ (by omega)]; simp [Nat.le_of_not_lt hy]

/-- What has been written stays written. -/
theorem written_isSome_writeSeq (m : Memory) (x y : Nat) (vs : List Byte) (h : (written m y).isSome) :
    (written (writeSeq m x vs) y).isSome := by
  rw [written_writeSeq]
  split
  · rename_i hr
    rw [List.getElem?_eq_getElem (show y - x < vs.length by omega)]; rfl
  · exact h

/-- The same, for the byte an address reads as. -/
theorem readByte_writeSeq (k : Nat) (m : Memory) (x y : Nat) (vs : List Byte) :
    readByte k (writeSeq m x vs) y = if x ≤ y ∧ y < x + vs.length then vs.getD (y - x) 0 else readByte k m y := by
  rw [readByte, written_writeSeq]
  split
  · rename_i h
    have : y - x < vs.length := by omega
    simp [List.getD_eq_getElem?_getD, List.getElem?_eq_getElem this]
  · rfl

/-- A read at or above a cut does not see the cut. -/
theorem readByte_fromAddr (k : Nat) (m : Memory) {x y : Nat} (h : x ≤ y) :
    readByte k (fromAddr m x) y = readByte k m y := by
  rw [readByte, readByte, written_fromAddr m h]

/-- One byte, then the rest: the walk of `readSeq` reads each address as `readByte` does. -/
theorem readSeq_succ (k : Nat) (m : Memory) (x n : Nat) :
    readSeq k m x (n + 1) = readByte k m x :: readSeq k (fromAddr m (x + 1)) (x + 1) n := by
  have cut : ∀ (m : Memory) (n : Nat), readSeq k (fromAddr m (x + 1)) (x + 1) n = readSeq k m (x + 1) n := by
    intro m n
    cases n with
    | zero => rfl
    | succ n => simp only [readSeq, fromAddr_fromAddr m le_rfl]
  rw [cut m n]
  have cut0 : readSeq k (fromAddr m x) (x + 1) n = readSeq k m (x + 1) n := by
    rw [← cut (fromAddr m x) n, fromAddr_fromAddr m (Nat.le_succ x), cut m n]
  rw [readSeq, readByte, written]
  cases hm : fromAddr m x with
  | nil => rw [hm] at cut0; simp [cut0]
  | cons c r =>
    rw [hm] at cut0
    dsimp only
    split
    · rename_i hc
      have : readSeq k (c :: r) (x + 1) n = readSeq k r (x + 1) n := by
        rw [← cut (c :: r) n, fromAddr_cons, if_pos (by omega), cut r n]
      rw [← this, cut0]; rfl
    · rw [cut0]; rfl

/-- `MemRead`: the bytes at `x`, `x + 1`, … (00_scope R10). -/
theorem readSeq_eq_map (k : Nat) (n : Nat) : ∀ (m : Memory) (x : Nat),
    readSeq k m x n = (List.range n).map (fun j => readByte k m (x + j)) := by
  induction n with
  | zero => intro m x; rfl
  | succ n ih =>
    intro m x
    rw [readSeq_succ, ih, List.range_succ_eq_map, List.map_cons, List.map_map]
    congr 1
    apply List.map_congr_left
    intro j _
    rw [readByte_fromAddr k m (by omega)]
    simp only [Function.comp]; congr 1; omega

/-! ### The canonical form -/

theorem Memory.wf_nil : Memory.wf [] := ⟨List.Pairwise.nil, by simp⟩

theorem Memory.wf_fromAddr {m : Memory} (h : m.wf) (x : Nat) : Memory.wf (fromAddr m x) := by
  have hs : (fromAddr m x).Sublist m := List.dropWhile_sublist _
  exact ⟨h.1.sublist hs, fun c hc => h.2 c (hs.subset hc)⟩

theorem fromAddr_ge {m : Memory} (h : m.wf) {x : Nat} : ∀ c ∈ fromAddr m x, x ≤ c.1 := by
  induction m with
  | nil => simp
  | cons d r ih =>
    rw [fromAddr_cons]
    have hr : Memory.wf r := ⟨h.1.of_cons, fun c hc => h.2 c (List.mem_cons_of_mem _ hc)⟩
    split
    · exact ih hr
    · intro c hc
      rcases List.mem_cons.mp hc with rfl | hc
      · omega
      · have := List.rel_of_pairwise_cons h.1 hc; omega

/-- An overlay keeps the form, and lists no address below its base. -/
theorem Memory.wf_overlay (vs : List Byte) : ∀ (m : Memory) (x : Nat), m.wf → (∀ c ∈ m, x ≤ c.1) →
    x + vs.length ≤ imageSize → Memory.wf (overlay m x vs) ∧ ∀ c ∈ overlay m x vs, x ≤ c.1 := by
  induction vs with
  | nil => intro m x h hx _; exact ⟨h, hx⟩
  | cons v vs ih =>
    intro m x h hx hlen
    simp only [List.length_cons] at hlen
    obtain ⟨hw, hge⟩ := ih (fromAddr m (x + 1)) (x + 1) (wf_fromAddr h _) (fromAddr_ge h) (by omega)
    refine ⟨⟨List.pairwise_cons.mpr ⟨fun c hc => hge c hc, hw.1⟩, ?_⟩, ?_⟩ <;>
      intro c hc <;> rcases List.mem_cons.mp hc with rfl | hc
    · show x < imageSize; omega
    · exact hw.2 c hc
    · exact le_rfl
    · have := hge c hc; omega

/-- Every write inside IMG keeps the canonical form. -/
theorem Memory.wf_writeSeq {m : Memory} (h : m.wf) {x : Nat} {vs : List Byte} (hx : x + vs.length ≤ imageSize) :
    Memory.wf (writeSeq m x vs) := by
  have low : ∀ (m : Memory) (l : Nat), m.wf → l < x → (∀ c ∈ m, l < c.1) → ∀ c ∈ writeSeq m x vs, l < c.1 := by
    intro m l hm hl hall
    induction m with
    | nil => intro c hc; have := (wf_overlay vs [] x wf_nil (by simp) hx).2 c hc; omega
    | cons d r ih =>
      have hr : Memory.wf r := ⟨hm.1.of_cons, fun c hc => hm.2 c (List.mem_cons_of_mem _ hc)⟩
      rw [writeSeq]
      split
      · intro c hc
        rcases List.mem_cons.mp hc with rfl | hc
        · exact hall _ (by simp)
        · exact ih hr (fun c hc => hall c (List.mem_cons_of_mem _ hc)) c hc
      · rename_i hd
        have hge : ∀ c ∈ d :: r, x ≤ c.1 := by
          intro c hc
          rcases List.mem_cons.mp hc with rfl | hc
          · omega
          · have := List.rel_of_pairwise_cons hm.1 hc; omega
        intro c hc
        have := (wf_overlay vs (d :: r) x hm hge hx).2 c hc
        omega
  induction m with
  | nil => exact (wf_overlay vs [] x wf_nil (by simp) hx).1
  | cons d r ih =>
    have hr : Memory.wf r := ⟨h.1.of_cons, fun c hc => h.2 c (List.mem_cons_of_mem _ hc)⟩
    rw [writeSeq]
    split
    · rename_i hd
      refine ⟨List.pairwise_cons.mpr ⟨?_, (ih hr).1⟩, ?_⟩
      · exact low r d.1 hr hd (fun c hc => List.rel_of_pairwise_cons h.1 hc)
      · intro c hc
        rcases List.mem_cons.mp hc with rfl | hc
        · exact h.2 _ (by simp)
        · exact (ih hr).2 c hc
    · rename_i hd
      refine (wf_overlay vs (d :: r) x h ?_ hx).1
      intro c hc
      rcases List.mem_cons.mp hc with rfl | hc
      · omega
      · have := List.rel_of_pairwise_cons h.1 hc; omega

/-- In canonical form the list is what is written where: equal contents are equal lists. -/
theorem Memory.ext_written : ∀ {m m' : Memory}, m.wf → m'.wf → (∀ x, written m x = written m' x) → m = m' := by
  have above : ∀ {d : Host.Cell} {r : Memory}, Memory.wf (d :: r) → ∀ x, x ≤ d.1 → written r x = none := by
    intro d r h x hx
    cases r with
    | nil => rfl
    | cons e r =>
      have := List.rel_of_pairwise_cons h.1 (List.mem_cons_self (a := e) (l := r))
      rw [written_cons, if_neg (by omega), if_neg (by omega)]
  have head : ∀ (d : Host.Cell) (r : Memory), written (d :: r) d.1 = some d.2 := by
    intro d r; rw [written_cons, if_neg (lt_irrefl _), if_pos rfl]
  have head_le : ∀ {d e : Host.Cell} {r r' : Memory}, Memory.wf (e :: r') →
      (∀ x, written (d :: r) x = written (e :: r') x) → e.1 ≤ d.1 := by
    intro d e r r' he h
    by_contra hlt
    have := h d.1
    rw [head, written_cons, if_neg (by omega), if_neg (by omega)] at this
    cases this
  intro m
  induction m with
  | nil =>
    intro m' _ _ h
    cases m' with
    | nil => rfl
    | cons e r' => have := h e.1; rw [head] at this; cases this
  | cons d r ih =>
    intro m' hm hm' h
    cases m' with
    | nil => have := h d.1; rw [head] at this; cases this
    | cons e r' =>
      have hde : d.1 = e.1 := le_antisymm (head_le hm (fun x => (h x).symm)) (head_le hm' h)
      have hv : d = e := by
        have := h d.1
        rw [head, hde, head] at this
        exact Prod.ext hde (Option.some.inj this)
      subst hv
      have hr : Memory.wf r := ⟨hm.1.of_cons, fun c hc => hm.2 c (List.mem_cons_of_mem _ hc)⟩
      have hr' : Memory.wf r' := ⟨hm'.1.of_cons, fun c hc => hm'.2 c (List.mem_cons_of_mem _ hc)⟩
      rw [ih hr hr' ?_]
      intro x
      by_cases hx : d.1 < x
      · have := h x; rwa [written_cons, written_cons, if_pos hx, if_pos hx] at this
      · rw [above hm x (by omega), above hm' x (by omega)]

end Sys2Proof.Machine
end

