-- ==== Sys2Proof/Laws/State.lean ====
section
/-! SUPPORT. One lemma per field per update of State, true by rfl, so that no proof unfolds a record update. -/

namespace Sys2Proof.Machine

variable (s : State)

/-! ### State.setImg -/

@[simp] theorem State.setImg_p (m : Memory) : (s.setImg m).p = s.p := rfl
@[simp] theorem State.setImg_np (m : Memory) : (s.setImg m).np = s.np := rfl
@[simp] theorem State.setImg_a (m : Memory) : (s.setImg m).a = s.a := rfl
@[simp] theorem State.setImg_na (m : Memory) : (s.setImg m).na = s.na := rfl
@[simp] theorem State.setImg_img (m : Memory) : (s.setImg m).img = m := rfl
@[simp] theorem State.setImg_ilen (m : Memory) : (s.setImg m).ilen = s.ilen := rfl
@[simp] theorem State.setImg_status (m : Memory) : (s.setImg m).status = s.status := rfl
@[simp] theorem State.setImg_erridx (m : Memory) : (s.setImg m).erridx = s.erridx := rfl
@[simp] theorem State.setImg_csval (m : Memory) : (s.setImg m).csval = s.csval := rfl
@[simp] theorem State.setImg_resets (m : Memory) : (s.setImg m).resets = s.resets := rfl
@[simp] theorem State.setImg_inbox (m : Memory) : (s.setImg m).inbox = s.inbox := rfl
@[simp] theorem State.setImg_reply (m : Memory) : (s.setImg m).reply = s.reply := rfl

/-! ### State.memWrite -/

@[simp] theorem State.memWrite_p (x : Nat) (vs : List Byte) : (s.memWrite x vs).p = s.p := rfl
@[simp] theorem State.memWrite_np (x : Nat) (vs : List Byte) : (s.memWrite x vs).np = s.np := rfl
@[simp] theorem State.memWrite_a (x : Nat) (vs : List Byte) : (s.memWrite x vs).a = s.a := rfl
@[simp] theorem State.memWrite_na (x : Nat) (vs : List Byte) : (s.memWrite x vs).na = s.na := rfl
@[simp] theorem State.memWrite_img (x : Nat) (vs : List Byte) : (s.memWrite x vs).img = writeSeq s.img x vs := rfl
@[simp] theorem State.memWrite_ilen (x : Nat) (vs : List Byte) : (s.memWrite x vs).ilen = s.ilen := rfl
@[simp] theorem State.memWrite_status (x : Nat) (vs : List Byte) : (s.memWrite x vs).status = s.status := rfl
@[simp] theorem State.memWrite_erridx (x : Nat) (vs : List Byte) : (s.memWrite x vs).erridx = s.erridx := rfl
@[simp] theorem State.memWrite_csval (x : Nat) (vs : List Byte) : (s.memWrite x vs).csval = s.csval := rfl
@[simp] theorem State.memWrite_resets (x : Nat) (vs : List Byte) : (s.memWrite x vs).resets = s.resets := rfl
@[simp] theorem State.memWrite_inbox (x : Nat) (vs : List Byte) : (s.memWrite x vs).inbox = s.inbox := rfl
@[simp] theorem State.memWrite_reply (x : Nat) (vs : List Byte) : (s.memWrite x vs).reply = s.reply := rfl

/-! ### State.setPrograms -/

@[simp] theorem State.setPrograms_p (l : List ProgramRecord) : (s.setPrograms l).p = l.take capacity := rfl
@[simp] theorem State.setPrograms_np (l : List ProgramRecord) : (s.setPrograms l).np = BitVec.ofNat 8 l.length := rfl
@[simp] theorem State.setPrograms_a (l : List ProgramRecord) : (s.setPrograms l).a = s.a := rfl
@[simp] theorem State.setPrograms_na (l : List ProgramRecord) : (s.setPrograms l).na = s.na := rfl
@[simp] theorem State.setPrograms_img (l : List ProgramRecord) : (s.setPrograms l).img = s.img := rfl
@[simp] theorem State.setPrograms_ilen (l : List ProgramRecord) : (s.setPrograms l).ilen = s.ilen := rfl
@[simp] theorem State.setPrograms_status (l : List ProgramRecord) : (s.setPrograms l).status = s.status := rfl
@[simp] theorem State.setPrograms_erridx (l : List ProgramRecord) : (s.setPrograms l).erridx = s.erridx := rfl
@[simp] theorem State.setPrograms_csval (l : List ProgramRecord) : (s.setPrograms l).csval = s.csval := rfl
@[simp] theorem State.setPrograms_resets (l : List ProgramRecord) : (s.setPrograms l).resets = s.resets := rfl
@[simp] theorem State.setPrograms_inbox (l : List ProgramRecord) : (s.setPrograms l).inbox = s.inbox := rfl
@[simp] theorem State.setPrograms_reply (l : List ProgramRecord) : (s.setPrograms l).reply = s.reply := rfl

/-! ### State.setAlarms -/

@[simp] theorem State.setAlarms_p (l : List AlarmRecord) : (s.setAlarms l).p = s.p := rfl
@[simp] theorem State.setAlarms_np (l : List AlarmRecord) : (s.setAlarms l).np = s.np := rfl
@[simp] theorem State.setAlarms_a (l : List AlarmRecord) : (s.setAlarms l).a = l.take capacity := rfl
@[simp] theorem State.setAlarms_na (l : List AlarmRecord) : (s.setAlarms l).na = BitVec.ofNat 8 l.length := rfl
@[simp] theorem State.setAlarms_img (l : List AlarmRecord) : (s.setAlarms l).img = s.img := rfl
@[simp] theorem State.setAlarms_ilen (l : List AlarmRecord) : (s.setAlarms l).ilen = s.ilen := rfl
@[simp] theorem State.setAlarms_status (l : List AlarmRecord) : (s.setAlarms l).status = s.status := rfl
@[simp] theorem State.setAlarms_erridx (l : List AlarmRecord) : (s.setAlarms l).erridx = s.erridx := rfl
@[simp] theorem State.setAlarms_csval (l : List AlarmRecord) : (s.setAlarms l).csval = s.csval := rfl
@[simp] theorem State.setAlarms_resets (l : List AlarmRecord) : (s.setAlarms l).resets = s.resets := rfl
@[simp] theorem State.setAlarms_inbox (l : List AlarmRecord) : (s.setAlarms l).inbox = s.inbox := rfl
@[simp] theorem State.setAlarms_reply (l : List AlarmRecord) : (s.setAlarms l).reply = s.reply := rfl

/-! ### State.setIlen -/

@[simp] theorem State.setIlen_p (n : Nat) : (s.setIlen n).p = s.p := rfl
@[simp] theorem State.setIlen_np (n : Nat) : (s.setIlen n).np = s.np := rfl
@[simp] theorem State.setIlen_a (n : Nat) : (s.setIlen n).a = s.a := rfl
@[simp] theorem State.setIlen_na (n : Nat) : (s.setIlen n).na = s.na := rfl
@[simp] theorem State.setIlen_img (n : Nat) : (s.setIlen n).img = s.img := rfl
@[simp] theorem State.setIlen_ilen (n : Nat) : (s.setIlen n).ilen = BitVec.ofNat 14 (min n imageSize) := rfl
@[simp] theorem State.setIlen_status (n : Nat) : (s.setIlen n).status = s.status := rfl
@[simp] theorem State.setIlen_erridx (n : Nat) : (s.setIlen n).erridx = s.erridx := rfl
@[simp] theorem State.setIlen_csval (n : Nat) : (s.setIlen n).csval = s.csval := rfl
@[simp] theorem State.setIlen_resets (n : Nat) : (s.setIlen n).resets = s.resets := rfl
@[simp] theorem State.setIlen_inbox (n : Nat) : (s.setIlen n).inbox = s.inbox := rfl
@[simp] theorem State.setIlen_reply (n : Nat) : (s.setIlen n).reply = s.reply := rfl

/-! ### State.setCsval -/

@[simp] theorem State.setCsval_p (c : Byte) : (s.setCsval c).p = s.p := rfl
@[simp] theorem State.setCsval_np (c : Byte) : (s.setCsval c).np = s.np := rfl
@[simp] theorem State.setCsval_a (c : Byte) : (s.setCsval c).a = s.a := rfl
@[simp] theorem State.setCsval_na (c : Byte) : (s.setCsval c).na = s.na := rfl
@[simp] theorem State.setCsval_img (c : Byte) : (s.setCsval c).img = s.img := rfl
@[simp] theorem State.setCsval_ilen (c : Byte) : (s.setCsval c).ilen = s.ilen := rfl
@[simp] theorem State.setCsval_status (c : Byte) : (s.setCsval c).status = s.status := rfl
@[simp] theorem State.setCsval_erridx (c : Byte) : (s.setCsval c).erridx = s.erridx := rfl
@[simp] theorem State.setCsval_csval (c : Byte) : (s.setCsval c).csval = c := rfl
@[simp] theorem State.setCsval_resets (c : Byte) : (s.setCsval c).resets = s.resets := rfl
@[simp] theorem State.setCsval_inbox (c : Byte) : (s.setCsval c).inbox = s.inbox := rfl
@[simp] theorem State.setCsval_reply (c : Byte) : (s.setCsval c).reply = s.reply := rfl

/-! ### State.setCsok -/

@[simp] theorem State.setCsok_p (ok : Bool) : (s.setCsok ok).p = s.p := rfl
@[simp] theorem State.setCsok_np (ok : Bool) : (s.setCsok ok).np = s.np := rfl
@[simp] theorem State.setCsok_a (ok : Bool) : (s.setCsok ok).a = s.a := rfl
@[simp] theorem State.setCsok_na (ok : Bool) : (s.setCsok ok).na = s.na := rfl
@[simp] theorem State.setCsok_img (ok : Bool) : (s.setCsok ok).img = s.img := rfl
@[simp] theorem State.setCsok_ilen (ok : Bool) : (s.setCsok ok).ilen = s.ilen := rfl
@[simp] theorem State.setCsok_status (ok : Bool) : (s.setCsok ok).status = setStatusCsok s.status ok := rfl
@[simp] theorem State.setCsok_erridx (ok : Bool) : (s.setCsok ok).erridx = s.erridx := rfl
@[simp] theorem State.setCsok_csval (ok : Bool) : (s.setCsok ok).csval = s.csval := rfl
@[simp] theorem State.setCsok_resets (ok : Bool) : (s.setCsok ok).resets = s.resets := rfl
@[simp] theorem State.setCsok_inbox (ok : Bool) : (s.setCsok ok).inbox = s.inbox := rfl
@[simp] theorem State.setCsok_reply (ok : Bool) : (s.setCsok ok).reply = s.reply := rfl

/-! ### State.answer -/

@[simp] theorem State.answer_p (r : Reply) : (s.answer r).p = s.p := rfl
@[simp] theorem State.answer_np (r : Reply) : (s.answer r).np = s.np := rfl
@[simp] theorem State.answer_a (r : Reply) : (s.answer r).a = s.a := rfl
@[simp] theorem State.answer_na (r : Reply) : (s.answer r).na = s.na := rfl
@[simp] theorem State.answer_img (r : Reply) : (s.answer r).img = s.img := rfl
@[simp] theorem State.answer_ilen (r : Reply) : (s.answer r).ilen = s.ilen := rfl
@[simp] theorem State.answer_status (r : Reply) : (s.answer r).status = s.status := rfl
@[simp] theorem State.answer_erridx (r : Reply) : (s.answer r).erridx = s.erridx := rfl
@[simp] theorem State.answer_csval (r : Reply) : (s.answer r).csval = s.csval := rfl
@[simp] theorem State.answer_resets (r : Reply) : (s.answer r).resets = s.resets := rfl
@[simp] theorem State.answer_inbox (r : Reply) : (s.answer r).inbox = s.inbox := rfl
@[simp] theorem State.answer_reply (r : Reply) : (s.answer r).reply = some r := rfl

/-! ### State.accept -/

@[simp] theorem State.accept_p (rest : List Transaction) : (s.accept rest).p = s.p := rfl
@[simp] theorem State.accept_np (rest : List Transaction) : (s.accept rest).np = s.np := rfl
@[simp] theorem State.accept_a (rest : List Transaction) : (s.accept rest).a = s.a := rfl
@[simp] theorem State.accept_na (rest : List Transaction) : (s.accept rest).na = s.na := rfl
@[simp] theorem State.accept_img (rest : List Transaction) : (s.accept rest).img = s.img := rfl
@[simp] theorem State.accept_ilen (rest : List Transaction) : (s.accept rest).ilen = s.ilen := rfl
@[simp] theorem State.accept_status (rest : List Transaction) : (s.accept rest).status = s.status := rfl
@[simp] theorem State.accept_erridx (rest : List Transaction) : (s.accept rest).erridx = s.erridx := rfl
@[simp] theorem State.accept_csval (rest : List Transaction) : (s.accept rest).csval = s.csval := rfl
@[simp] theorem State.accept_resets (rest : List Transaction) : (s.accept rest).resets = s.resets := rfl
@[simp] theorem State.accept_inbox (rest : List Transaction) : (s.accept rest).inbox = rest := rfl
@[simp] theorem State.accept_reply (rest : List Transaction) : (s.accept rest).reply = none := rfl

/-! ### State.succeed -/

@[simp] theorem State.succeed_p : (s.succeed).p = s.p := rfl
@[simp] theorem State.succeed_np : (s.succeed).np = s.np := rfl
@[simp] theorem State.succeed_a : (s.succeed).a = s.a := rfl
@[simp] theorem State.succeed_na : (s.succeed).na = s.na := rfl
@[simp] theorem State.succeed_img : (s.succeed).img = s.img := rfl
@[simp] theorem State.succeed_ilen : (s.succeed).ilen = s.ilen := rfl
@[simp] theorem State.succeed_status : (s.succeed).status = setStatusErr s.status 0 := rfl
@[simp] theorem State.succeed_erridx : (s.succeed).erridx = 0 := rfl
@[simp] theorem State.succeed_csval : (s.succeed).csval = s.csval := rfl
@[simp] theorem State.succeed_resets : (s.succeed).resets = s.resets := rfl
@[simp] theorem State.succeed_inbox : (s.succeed).inbox = s.inbox := rfl
@[simp] theorem State.succeed_reply : (s.succeed).reply = s.reply := rfl

/-! ### raise -/

@[simp] theorem raise_p (e : BlockError) (info : Byte) : (raise e info s).p = s.p := rfl
@[simp] theorem raise_np (e : BlockError) (info : Byte) : (raise e info s).np = s.np := rfl
@[simp] theorem raise_a (e : BlockError) (info : Byte) : (raise e info s).a = s.a := rfl
@[simp] theorem raise_na (e : BlockError) (info : Byte) : (raise e info s).na = s.na := rfl
@[simp] theorem raise_img (e : BlockError) (info : Byte) : (raise e info s).img = s.img := rfl
@[simp] theorem raise_ilen (e : BlockError) (info : Byte) : (raise e info s).ilen = s.ilen := rfl
@[simp] theorem raise_status (e : BlockError) (info : Byte) : (raise e info s).status = setStatusSerr (setStatusErr s.status e.code) := rfl
@[simp] theorem raise_erridx (e : BlockError) (info : Byte) : (raise e info s).erridx = info := rfl
@[simp] theorem raise_csval (e : BlockError) (info : Byte) : (raise e info s).csval = s.csval := rfl
@[simp] theorem raise_resets (e : BlockError) (info : Byte) : (raise e info s).resets = s.resets := rfl
@[simp] theorem raise_inbox (e : BlockError) (info : Byte) : (raise e info s).inbox = s.inbox := rfl
@[simp] theorem raise_reply (e : BlockError) (info : Byte) : (raise e info s).reply = s.reply := rfl

/-! ### State.withFetchWord -/

@[simp] theorem State.withFetchWord_p (nbits w : Nat) : (s.withFetchWord nbits w).p = s.p := rfl
@[simp] theorem State.withFetchWord_np (nbits w : Nat) : (s.withFetchWord nbits w).np = s.np := rfl
@[simp] theorem State.withFetchWord_a (nbits w : Nat) : (s.withFetchWord nbits w).a = s.a := rfl
@[simp] theorem State.withFetchWord_na (nbits w : Nat) : (s.withFetchWord nbits w).na = s.na := rfl
@[simp] theorem State.withFetchWord_img (nbits w : Nat) : (s.withFetchWord nbits w).img = s.img := rfl
@[simp] theorem State.withFetchWord_ilen (nbits w : Nat) : (s.withFetchWord nbits w).ilen = s.ilen := rfl
@[simp] theorem State.withFetchWord_status (nbits w : Nat) : (s.withFetchWord nbits w).status = s.status := rfl
@[simp] theorem State.withFetchWord_erridx (nbits w : Nat) : (s.withFetchWord nbits w).erridx = s.erridx := rfl
@[simp] theorem State.withFetchWord_csval (nbits w : Nat) : (s.withFetchWord nbits w).csval = s.csval := rfl
@[simp] theorem State.withFetchWord_resets (nbits w : Nat) : (s.withFetchWord nbits w).resets = s.resets := rfl
@[simp] theorem State.withFetchWord_inbox (nbits w : Nat) : (s.withFetchWord nbits w).inbox = .cmd (tableWord nbits w) :: s.inbox := rfl
@[simp] theorem State.withFetchWord_reply (nbits w : Nat) : (s.withFetchWord nbits w).reply = s.reply := rfl

end Sys2Proof.Machine
end

