-- ==== Sys2Proof/Laws/Ops.lean ====
section
/-! SUPPORT. What the shared operations do to the bytes of IMG, to STATUS and to the record files. -/

namespace Sys2Proof.Machine

/-! ### Bytes of IMG -/

/-- What an address reads as is settled by IMG and the reset counter alone. -/
theorem imgByte_congr {s t : State} (hi : t.img = s.img) (hr : t.resets = s.resets) (y : Nat) :
    t.imgByte y = s.imgByte y := by
  simp only [State.imgByte, hi, hr]

/-- `MemRead(x, n)` is the bytes at `x`, `x + 1`, … (00_scope R10). -/
theorem memRead_eq (s : State) (x n : Nat) : s.memRead x n = (List.range n).map (fun k => s.imgByte (x + k)) :=
  readSeq_eq_map _ _ _ _

@[simp] theorem length_memRead (s : State) (x n : Nat) : (s.memRead x n).length = n := by
  simp [memRead_eq]

/-- A read after `MemWrite(x, …)`: the byte written inside the range, the old one outside it. -/
theorem imgByte_memWrite (s : State) (x y : Nat) (vs : List Byte) :
    (s.memWrite x vs).imgByte y = if x ≤ y ∧ y < x + vs.length then vs.getD (y - x) 0 else s.imgByte y :=
  readByte_writeSeq _ _ _ _ _

theorem imgByte_memWrite_of_lt (s : State) {x y : Nat} (vs : List Byte) (h : y < x) :
    (s.memWrite x vs).imgByte y = s.imgByte y := by
  rw [imgByte_memWrite, if_neg (by omega)]

theorem imgByte_memWrite_of_ge (s : State) {x y : Nat} (vs : List Byte) (h : x + vs.length ≤ y) :
    (s.memWrite x vs).imgByte y = s.imgByte y := by
  rw [imgByte_memWrite, if_neg (by omega)]

theorem imgByte_memWrite_self (s : State) (x k : Nat) (vs : List Byte) (h : k < vs.length) :
    (s.memWrite x vs).imgByte (x + k) = vs.getD k 0 := by
  rw [imgByte_memWrite, if_pos (by omega), Nat.add_sub_cancel_left]

/-! ### Entry addresses -/

theorem off_eq (b sl : Nat) : off b sl = 256 * b + 36 * sl := rfl

theorem eaAddr_eq (b : BitVec 5) (sl : BitVec 3) : eaAddr b sl = 256 * b.toNat + 36 * sl.toNat := rfl

theorem addrP_eq (i : Nat) : addrP i = 256 * (i / 7) + 36 * (i % 7) := rfl

theorem addrA_eq (i : Nat) : addrA i = 256 * (16 + i / 7) + 36 * (i % 7) := rfl

/-- A legal slot index is at most 6 (30_encoding R106). -/
theorem slot_le_six {sl : BitVec 3} (h : sl ≠ 7) : sl.toNat ≤ 6 := by
  have h7 : sl.toNat ≠ 7 := fun h' => h (BitVec.eq_of_toNat_eq h')
  have := sl.isLt
  omega

/-- Every entry a command can name lies inside IMG and off its last filler (20_memory R54, R56). -/
theorem eaAddr_bound {b : BitVec 5} {sl : BitVec 3} (h : sl ≠ 7) : eaAddr b sl + 36 ≤ 8188 := by
  have := slot_le_six h
  have := b.isLt
  rw [eaAddr_eq]; omega

/-! ### How commands end -/

/-- Everything the error entry does (60_exceptions R238). -/
theorem raise_errorEntry (e : BlockError) (info : Byte) (s : State) :
    ErrorEntry s (raise e info s) e.code info :=
  ⟨rfl, by simp, by simp, by simp, by simp⟩

/-- Everything the end of a successful command does (10_state R35). -/
theorem succeed_successFlags (s : State) : SuccessFlags s s.succeed := by
  simp [SuccessFlags]

/-! ### Record files -/

/-- ILEN saturates at 8192, which 14 bits hold (10_state R29). -/
theorem setIlen_ilen_toNat (s : State) (n : Nat) : (s.setIlen n).ilen.toNat = min n 8192 := by
  simp only [State.setIlen_ilen, BitVec.toNat_ofNat, imageSize]
  omega

/-- A list of at most 255 records keeps its length in the 8-bit count (20_memory R70). -/
theorem setPrograms_np_toNat (s : State) {l : List ProgramRecord} (h : l.length ≤ 255) :
    (s.setPrograms l).np.toNat = l.length := by
  simp only [State.setPrograms_np, BitVec.toNat_ofNat]; omega

theorem setAlarms_na_toNat (s : State) {l : List AlarmRecord} (h : l.length ≤ 255) :
    (s.setAlarms l).na.toNat = l.length := by
  simp only [State.setAlarms_na, BitVec.toNat_ofNat]; omega

end Sys2Proof.Machine
end

