-- ==== Sys2Proof/Laws/Checksum.lean ====
section
/-! SUPPORT. The checksum, and what CSGEN and CSVFY do. -/

namespace Sys2Proof.Machine

/-- The bytes after the 35th are not used (42_checksum R211). -/
theorem csum_append {e : List Byte} (h : 35 ≤ e.length) (f : List Byte) : csum (e ++ f) = csum e := by
  rw [csum, csum, List.take_append_of_le_length h]

/-- The checksum of an entry in IMG. -/
theorem csum_memRead (s : State) (x : Nat) {n : Nat} (h : 35 ≤ n) : csum (s.memRead x n) = imageSum s x := by
  rw [csum, imageSum, memRead_eq, ← List.map_take, List.take_range, Nat.min_eq_left h, List.map_map]
  rfl

/-- The sum with one byte exchanged, exactly. -/
theorem sum_set (l : List Byte) (k : Nat) (v : Byte) (h : k < l.length) :
    ((l.set k v).map BitVec.toNat).sum + (l.getD k 0).toNat = (l.map BitVec.toNat).sum + v.toNat := by
  induction l generalizing k with
  | nil => simp at h
  | cons a l ih =>
    cases k with
    | zero => simp; omega
    | succ k =>
      have := ih k (by simpa using h)
      simp only [List.set_cons_succ, List.map_cons, List.sum_cons, List.getD_cons_succ]
      omega

/-- Changing exactly one summed byte changes the checksum (42_checksum R214 a). -/
theorem csum_set_ne {e : List Byte} {k : Nat} {v : Byte} (h35 : k < 35) (hk : k < e.length) (hv : e.getD k 0 ≠ v) :
    csum (e.set k v) ≠ csum e := by
  intro h
  apply hv
  have hs := sum_set (e.take 35) k v (by simp; omega)
  have hg : (e.take 35).getD k 0 = e.getD k 0 := by
    simp [List.getD_eq_getElem?_getD, h35]
  rw [hg] at hs
  have h' := congrArg BitVec.toNat h
  simp only [csum, List.take_set, BitVec.toNat_ofNat] at h'
  apply BitVec.eq_of_toNat_eq
  have := (e.getD k 0).isLt
  have := v.isLt
  omega

/-- CSGEN of a legal slot (42_checksum R212). -/
theorem execCsgen_legal {sl : BitVec 3} (h : sl ≠ 7) (b : BitVec 5) (s : State) :
    execCsgen b sl s = .next (((s.memWrite (eaAddr b sl + 35) [imageSum s (eaAddr b sl)]).setCsval
      (imageSum s (eaAddr b sl))).succeed) := by
  rw [execCsgen, if_neg h]
  simp only [csum_memRead s _ le_rfl]

/-- CSVFY of a legal slot (42_checksum R213). -/
theorem execCsvfy_legal {sl : BitVec 3} (h : sl ≠ 7) (b : BitVec 5) (s : State) :
    execCsvfy b sl s = .next (((s.setCsval (imageSum s (eaAddr b sl))).setCsok
      (decide (s.imgByte (eaAddr b sl + 35) = imageSum s (eaAddr b sl)))).succeed) := by
  rw [execCsvfy, if_neg h]
  have hb : (s.memRead (eaAddr b sl) entrySize).getD 35 0 = s.imgByte (eaAddr b sl + 35) := by
    simp [memRead_eq, List.getD_eq_getElem?_getD]
  simp only [csum_memRead s _ (show 35 ≤ entrySize by decide), hb]

/-- The checksum of an entry is settled by its 35 bytes. -/
theorem imageSum_congr {s t : State} {x : Nat} (h : ∀ k, k < 35 → t.imgByte (x + k) = s.imgByte (x + k)) :
    imageSum t x = imageSum s x := by
  rw [imageSum, imageSum]
  congr 2
  exact List.map_congr_left fun k hk => congrArg BitVec.toNat (h k (List.mem_range.mp hk))

end Sys2Proof.Machine
end

