-- ==== Sys2Proof/Laws/Decode.lean ====
section
/-! SUPPORT. The fields of a command word, and the encodings, as numbers. -/

namespace Sys2Proof

theorem opcodeField_toNat (w : CmdWord) : (opcodeField w).toNat = w.toNat / 256 := by
  have := w.isLt
  simp [opcodeField, Nat.shiftRight_eq_div_pow]; omega

theorem operandField_toNat (w : CmdWord) : (operandField w).toNat = w.toNat % 256 := by
  simp [operandField]

theorem blockField_toNat (arg : Byte) : (blockField arg).toNat = arg.toNat / 8 := by
  have := arg.isLt
  simp [blockField, Nat.shiftRight_eq_div_pow]; omega

theorem slotField_toNat (arg : Byte) : (slotField arg).toNat = arg.toNat % 8 := by
  simp [slotField]

/-- The encodings as numbers (30_encoding R105, R106). -/
theorem encodeWord_toNat (i : Instr) : (encodeWord i).toNat =
    match i with
    | .encode => 0x0100
    | .decode => 0x0200
    | .csgen b sl => 0x0300 + 8 * b.toNat + sl.toNat
    | .csvfy b sl => 0x0400 + 8 * b.toNat + sl.toNat := by
  cases i with
  | encode => rfl
  | decode => rfl
  | csgen b sl => revert b sl; decide +kernel
  | csvfy b sl => revert b sl; decide +kernel

/-- The mask 0xFF00 keeps the opcode (30_encoding R105). -/
theorem toNat_and_0xFF00 (w : CmdWord) : (w &&& 0xFF00).toNat = 256 * (w.toNat / 256) := by
  have h : w &&& (0xFF00 : CmdWord) = (w >>> 8) <<< 8 := by
    ext i hi
    simp only [BitVec.getElem_and, BitVec.getElem_shiftLeft]
    rcases Nat.lt_or_ge i 8 with h | h
    · have : i = 0 ∨ i = 1 ∨ i = 2 ∨ i = 3 ∨ i = 4 ∨ i = 5 ∨ i = 6 ∨ i = 7 := by omega
      rcases this with rfl | rfl | rfl | rfl | rfl | rfl | rfl | rfl <;> simp
    · have : i = 8 ∨ i = 9 ∨ i = 10 ∨ i = 11 ∨ i = 12 ∨ i = 13 ∨ i = 14 ∨ i = 15 := by omega
      rcases this with rfl | rfl | rfl | rfl | rfl | rfl | rfl | rfl <;> simp
  have := w.isLt
  rw [h, BitVec.toNat_shiftLeft, BitVec.toNat_ushiftRight, Nat.shiftLeft_eq, Nat.shiftRight_eq_div_pow]
  omega

end Sys2Proof
end

