-- ==== Sys2Proof/Laws/Decoder.lean ====
section
/-! SUPPORT. The decoder's micro-operations, and DECODE slot by slot. -/

namespace Sys2Proof.Machine

/-! ### Names -/

theorem length_nameget_le (e : List Byte) (w : Nat) : (nameget e w).length ≤ w :=
  (List.takeWhile_sublist _).length_le.trans (by simp)

/-- A name from the image holds no zero byte (41_decoder R171). -/
theorem zero_notMem_nameget (e : List Byte) (w : Nat) : 0x00 ∉ nameget e w := by
  intro h
  have := List.mem_takeWhile_imp h
  simp at this

/-- TRIM keeps a stretch of the bytes (41_decoder R172). -/
theorem trim_sublist (white n : List Byte) : (trim white n).Sublist n :=
  (List.rdropWhile_prefix _ _).sublist.trans (List.dropWhile_sublist _)

/-- TRIM strips whitespace only, at both ends, and all of it there (41_decoder R172). -/
theorem trim_spec (white n : List Byte) : ∃ front back,
    n = front ++ trim white n ++ back ∧ (∀ v ∈ front, v ∈ white) ∧ (∀ v ∈ back, v ∈ white) ∧
    (∀ v, (trim white n).head? = some v → v ∉ white) ∧ ∀ v, (trim white n).getLast? = some v → v ∉ white := by
  set q : Byte → Bool := fun v => white.contains v with hq
  have hqt : ∀ v, q v = true ↔ v ∈ white := by intro v; simp [hq]
  set mid := n.dropWhile q with hmid
  refine ⟨n.takeWhile q, (mid.reverse.takeWhile q).reverse, ?_, ?_, ?_, ?_, ?_⟩
  · have h1 : trim white n ++ (mid.reverse.takeWhile q).reverse = mid := by
      show mid.rdropWhile q ++ _ = mid
      rw [List.rdropWhile, ← List.reverse_append, List.takeWhile_append_dropWhile, List.reverse_reverse]
    rw [List.append_assoc, h1, hmid, List.takeWhile_append_dropWhile]
  · intro v hv; exact (hqt v).mp (List.mem_takeWhile_imp hv)
  · intro v hv; exact (hqt v).mp (List.mem_takeWhile_imp (List.mem_reverse.mp hv))
  · intro v hv hw
    have hpre : trim white n <+: mid := List.rdropWhile_prefix _ _
    have hne : trim white n ≠ [] := by intro h; rw [h] at hv; cases hv
    obtain ⟨tl, htl⟩ := hpre
    have hhead : mid.head? = some v := by rw [← htl, List.head?_append, hv]; rfl
    have := List.head?_dropWhile_not q n
    rw [← hmid, hhead] at this
    simp [(hqt v).mpr hw] at this
  · intro v hv hw
    have hne : mid.rdropWhile q ≠ [] := by intro h; rw [trim, ← hq, ← hmid, h] at hv; cases hv
    have := List.rdropWhile_last_not q mid hne
    rw [trim, ← hq, ← hmid, List.getLast?_eq_some_getLast hne, Option.some.injEq] at hv
    exact this (by rw [hv]; exact (hqt v).mpr hw)

/-- A name that neither begins nor ends with whitespace is returned unchanged (41_decoder R172). -/
theorem trim_eq_self {white n : List Byte} (hf : ∀ v, n.head? = some v → v ∉ white)
    (hl : ∀ v, n.getLast? = some v → v ∉ white) : trim white n = n := by
  have h1 : n.dropWhile (fun v => white.contains v) = n := by
    cases n with
    | nil => rfl
    | cons v n => rw [List.dropWhile_cons_of_neg (by simpa using hf v rfl)]
  rw [trim, h1, List.rdropWhile_eq_self_iff]
  intro hne
  simpa using hl _ (List.getLast?_eq_some_getLast hne)

/-! ### Fields -/

theorem tjoin_toNat (tlo : Byte) (x : Bool) : (tjoin tlo x).toNat = tlo.toNat + if x then 255 else 0 := by
  have := tlo.isLt
  cases x <;> simp [tjoin] <;> omega

/-- The fields of a control byte by arithmetic (41_decoder R175). -/
theorem ctrlunpack_toNat (c : Byte) :
    ((ctrlunpack c).x = decide (128 ≤ c.toNat)) ∧ (ctrlunpack c).aft.toNat = c.toNat / 32 % 4 ∧
    (ctrlunpack c).pl.toNat = c.toNat / 4 % 4 ∧ (ctrlunpack c).ts.toNat = c.toNat % 4 := by
  revert c; decide +kernel

theorem lab_toNat (o : BitVec 2) (size : Nat) : (lab o size).toNat = if o.toNat < size then o.toNat else 0 := by
  rw [lab]
  split
  · have := o.isLt; simp; omega
  · rfl

/-! ### DECODE slot by slot -/

theorem decodeSlot_eq {α : Type} (unpack : List Byte → Option α) (e : List Byte) :
    decodeSlot unpack e = slotRecord unpack e := by
  cases e <;> simp [decodeSlot, slotRecord, entryByte]

theorem decodeSlots_eq {α : Type} (unpack : List Byte → Option α) (n : Nat) : ∀ bs : List Byte,
    decodeSlots unpack n bs =
      (List.range n).filterMap fun sl => slotRecord unpack ((bs.drop (36 * sl)).take 36) := by
  induction n with
  | zero => intro bs; rfl
  | succ n ih =>
    intro bs
    rw [decodeSlots, ih, decodeSlot_eq, List.range_succ_eq_map, List.filterMap_cons, List.filterMap_map]
    have : ((fun sl => slotRecord unpack (List.take 36 (List.drop (36 * sl) bs))) ∘ Nat.succ) =
        fun sl => slotRecord unpack (List.take 36 (List.drop (36 * sl) (List.drop entrySize bs))) := by
      funext sl
      simp only [Function.comp, List.drop_drop]
      rw [show entrySize + 36 * sl = 36 * sl.succ by simp only [entrySize]; omega]
    rw [this]
    cases h : slotRecord unpack (List.take entrySize bs) <;> simp_all

theorem decodeBlocks_eq {α : Type} (unpack : List Byte → Option α) (n : Nat) : ∀ bs : List Byte,
    decodeBlocks unpack n bs = (List.range n).flatMap fun b => decodeSlots unpack 7 (bs.drop (256 * b)) := by
  induction n with
  | zero => intro bs; rfl
  | succ n ih =>
    intro bs
    rw [decodeBlocks, ih, List.range_succ_eq_map, List.flatMap_cons, List.flatMap_map]
    congr 1
    apply List.flatMap_congr
    intro b _
    rw [List.drop_drop, show blockSize + 256 * b = 256 * b.succ by simp only [blockSize]; omega]

/-- A stretch of a stretch of IMG. -/
theorem take_drop_memRead (s : State) (x N d n : Nat) (h : d + n ≤ N) :
    ((s.memRead x N).drop d).take n = s.memRead (x + d) n := by
  rw [memRead_eq, memRead_eq, ← List.map_drop, ← List.map_take]
  apply List.ext_getElem
  · simp; omega
  · intro k h1 h2
    simp; congr 1; omega

theorem memRead_slot (s : State) (b sl : Nat) : s.memRead (256 * b + 36 * sl) 36 = slotBytes s b sl :=
  memRead_eq _ _ _

/-- A section, slot by slot: `MemRead(OFF(b, s), 36)` for ascending `b`, then `s` (41_decoder R180). -/
theorem decodeBlocks_memRead {α : Type} (unpack : List Byte → Option α) (s : State) (base : Nat) :
    decodeBlocks unpack 16 (s.memRead (256 * base) 4096) =
      (List.range 16).flatMap fun b => (List.range 7).filterMap fun sl =>
        slotRecord unpack (slotBytes s (base + b) sl) := by
  rw [decodeBlocks_eq]
  apply List.flatMap_congr
  intro b hb
  rw [decodeSlots_eq]
  apply List.filterMap_congr
  intro sl hsl
  have := List.mem_range.mp hb
  have := List.mem_range.mp hsl
  rw [List.drop_drop, take_drop_memRead _ _ _ _ _ (by omega),
    show 256 * base + (256 * b + 36 * sl) = 256 * (base + b) + 36 * sl by omega, memRead_slot]

theorem decodedPrograms_eq (s : State) : decodedPrograms s =
    (List.range 16).flatMap fun b => (List.range 7).filterMap fun sl => slotRecord (unpkp ws) (slotBytes s b sl) := by
  have := decodeBlocks_memRead (unpkp ws) s 0
  simp only [Nat.zero_add, Nat.mul_zero] at this
  exact this

theorem decodedAlarms_eq (s : State) : decodedAlarms s =
    (List.range 16).flatMap fun b => (List.range 7).filterMap fun sl =>
      slotRecord (unpka ws) (slotBytes s (16 + b) sl) :=
  decodeBlocks_memRead (unpka ws) s 16

/-- No section holds more than 112 records (41_decoder R180). -/
theorem length_section_le {α : Type} (f : Nat → Nat → Option α) :
    ((List.range 16).flatMap fun b => (List.range 7).filterMap fun sl => f b sl).length ≤ 112 := by
  have h7 : ∀ b, ((List.range 7).filterMap fun sl => f b sl).length ≤ 7 := fun b =>
    (List.length_filterMap_le _ _).trans (by simp)
  have : ∀ n, ((List.range n).flatMap fun b => (List.range 7).filterMap fun sl => f b sl).length ≤ 7 * n := by
    intro n
    induction n with
    | zero => simp
    | succ n ih =>
      rw [List.range_succ (n := n), List.flatMap_append, List.length_append]
      have := h7 n
      simp only [List.flatMap_cons, List.flatMap_nil, List.append_nil]
      omega
  exact this 16

/-- What DECODE's result hangs on: the bytes of the slots. -/
theorem slotBytes_congr {s t : State} {b sl : Nat}
    (h : ∀ k, k < 36 → t.imgByte (256 * b + 36 * sl + k) = s.imgByte (256 * b + 36 * sl + k)) :
    slotBytes t b sl = slotBytes s b sl :=
  List.map_congr_left fun k hk => h k (List.mem_range.mp hk)

/-- DECODE of a short image (60_exceptions R231). -/
theorem execDecode_short {s : State} (h : s.ilen.toNat < 8192) : execDecode s = .next (raise .formatError 0x00 s) := by
  rw [execDecode, if_pos h]

/-- DECODE of a whole image (41_decoder R180). -/
theorem execDecode_whole {s : State} (h : ¬ s.ilen.toNat < 8192) : execDecode s =
    .next (((s.setPrograms (decodedPrograms s)).setAlarms (decodedAlarms s)).succeed) := by
  rw [execDecode, if_neg h]

end Sys2Proof.Machine
end

