-- ==== Sys2Proof/Laws/Encoder.lean ====
section
/-! SUPPORT. The encoder's micro-operations, its error scan, and the image ENCODE writes. -/

namespace Sys2Proof.Machine

/-! ### Micro-operations -/

theorem length_nameput (name : List Byte) (w : Nat) : (nameput name w).length = w := by
  simp only [nameput, List.length_append, List.length_take, List.length_replicate]; omega

/-- Byte `k` of the name field: the name's own, or 0x00 (40_encoder R135). -/
theorem nameput_getElem? (name : List Byte) {w k : Nat} (h : k < w) :
    (nameput name w)[k]? = some (name.getD k 0x00) := by
  rw [nameput]
  by_cases hk : k < name.length
  · rw [List.getElem?_append_left (by simp; omega)]
    simp [List.getD_eq_getElem?_getD, h, List.getElem?_eq_getElem hk]
  · rw [List.getElem?_append_right (by simp; omega), List.getElem?_replicate, if_pos (by simp; omega),
      List.getD_eq_getElem?_getD, List.getElem?_eq_none (by omega)]
    rfl

theorem ord_lt (code : Byte) {size : Nat} (h : 1 ≤ size) (h4 : size ≤ 4) :
    (ord code size).toNat = (if code.toNat < size then code.toNat else 0) ∧ (ord code size).toNat < size := by
  rw [ord]
  split
  · rename_i hc
    have : (code.setWidth 2).toNat = code.toNat := by simp; omega
    exact ⟨this, by omega⟩
  · exact ⟨rfl, h⟩

/-- The bytes before an entry's checksum, program entry (30_encoding R91). -/
def packpBody (r : ProgramRecord) : List Byte :=
  nameput r.name 26 ++ List.replicate 4 0x00 ++
    [(tsplit r.temperature).1,
      ctrlpack (tsplit r.temperature).2 (ord r.afterTimer 4) (ord r.powerLevel 4) (ord r.timerStart 3),
      (timerenc r.timerOff r.hours r.minutes r.seconds).1, (timerenc r.timerOff r.hours r.minutes r.seconds).2.1,
      (timerenc r.timerOff r.hours r.minutes r.seconds).2.2]

/-- The bytes before an entry's checksum, alarm entry (30_encoding R92). -/
def packaBody (r : AlarmRecord) : List Byte :=
  nameput r.name 20 ++ List.replicate 10 0x00 ++
    [(tsplit r.temperature).1, flagByte (tsplit r.temperature).2, 0x00, 0x00, 0x00]

theorem length_packpBody (r : ProgramRecord) : (packpBody r).length = 35 := by
  simp [packpBody, length_nameput]

theorem length_packaBody (r : AlarmRecord) : (packaBody r).length = 35 := by
  simp [packaBody, length_nameput]

/-- An entry is its first 35 bytes and their checksum, which is the entry's own (40_encoder R137). -/
theorem packp_eq (r : ProgramRecord) : packp r = packpBody r ++ [csum (packp r)] := by
  have h : packp r = packpBody r ++ [csum (packpBody r)] := rfl
  rw [h, csum_append (length_packpBody r).ge]

theorem packa_eq (r : AlarmRecord) : packa r = packaBody r ++ [csum (packa r)] := by
  have h : packa r = packaBody r ++ [csum (packaBody r)] := rfl
  rw [h, csum_append (length_packaBody r).ge]

theorem length_packp (r : ProgramRecord) : (packp r).length = 36 := by
  rw [packp_eq, List.length_append, length_packpBody]; rfl

theorem length_packa (r : AlarmRecord) : (packa r).length = 36 := by
  rw [packa_eq, List.length_append, length_packaBody]; rfl

/-- Byte 35 of an entry is its checksum (30_encoding R100). -/
theorem packp_getD_35 (r : ProgramRecord) : (packp r).getD 35 0 = csum (packp r) := by
  rw [packp_eq, List.getD_eq_getElem?_getD, List.getElem?_append_right (length_packpBody r).le, length_packpBody,
    ← packp_eq]
  rfl

theorem packa_getD_35 (r : AlarmRecord) : (packa r).getD 35 0 = csum (packa r) := by
  rw [packa_eq, List.getD_eq_getElem?_getD, List.getElem?_append_right (length_packaBody r).le, length_packaBody,
    ← packa_eq]
  rfl

/-- Byte 0 of an entry is the name's first byte, or 0x00 (40_encoder R137). -/
theorem packp_getD_name (r : ProgramRecord) {k : Nat} (h : k < 26) : (packp r).getD k 0 = r.name.getD k 0x00 := by
  rw [packp_eq, List.getD_eq_getElem?_getD, List.getElem?_append_left (by rw [length_packpBody]; omega), packpBody,
    List.append_assoc, List.getElem?_append_left (by rw [length_nameput]; omega), nameput_getElem? _ h]
  rfl

theorem packa_getD_name (r : AlarmRecord) {k : Nat} (h : k < 20) : (packa r).getD k 0 = r.name.getD k 0x00 := by
  rw [packa_eq, List.getD_eq_getElem?_getD, List.getElem?_append_left (by rw [length_packaBody]; omega), packaBody,
    List.append_assoc, List.getElem?_append_left (by rw [length_nameput]; omega), nameput_getElem? _ h]
  rfl

/-! ### The error scan -/

theorem checkRec_eq_none {name : List Byte} {t : BitVec 9} :
    checkRec name t = none ↔ name.head? ≠ some 0xFF ∧ t.toNat ≤ 482 := by
  rw [checkRec]; split <;> [simp_all; (split <;> simp_all)]

/-- The scan finds nothing exactly when every record passes. -/
theorem firstBad_eq_none {lb : Byte} {l : List (List Byte × BitVec 9)} : ∀ {i : Nat},
    firstBad lb i l = none ↔ ∀ x ∈ l, checkRec x.1 x.2 = none := by
  induction l with
  | nil => simp [firstBad]
  | cons x l ih =>
    intro i
    obtain ⟨n, t⟩ := x
    rw [firstBad]
    cases h : checkRec n t with
    | none => simp [h, ih]
    | some e => simp [h]

/-- The scan reports the first record that fails, and its index. -/
theorem firstBad_eq_some {lb : Byte} {l : List (List Byte × BitVec 9)} {e : BlockError} {info : Byte} : ∀ {i : Nat},
    firstBad lb i l = some (e, info) ↔
      ∃ k x, l[k]? = some x ∧ checkRec x.1 x.2 = some e ∧ info = lb ||| BitVec.ofNat 8 (i + k) ∧
        ∀ y ∈ l.take k, checkRec y.1 y.2 = none := by
  induction l with
  | nil => simp [firstBad]
  | cons x l ih =>
    intro i
    obtain ⟨n, t⟩ := x
    rw [firstBad]
    cases h : checkRec n t with
    | some e' =>
      constructor
      · intro h'
        simp only [Option.some.injEq, Prod.mk.injEq] at h'
        exact ⟨0, (n, t), rfl, by rw [h, h'.1], by simp [← h'.2], by simp⟩
      · rintro ⟨k, y, hk, hy, hinfo, hall⟩
        cases k with
        | zero =>
          simp only [List.getElem?_cons_zero, Option.some.injEq] at hk
          subst hk
          rw [h] at hy
          simp only [Option.some.injEq] at hy
          simp [hy, hinfo]
        | succ k =>
          have := hall (n, t) (by simp)
          rw [h] at this; cases this
    | none =>
      dsimp only
      rw [ih]
      constructor
      · rintro ⟨k, y, hk, hy, hinfo, hall⟩
        refine ⟨k + 1, y, by simpa using hk, hy, by rw [hinfo]; congr 2; omega, ?_⟩
        intro z hz
        rw [List.take_succ_cons, List.mem_cons] at hz
        rcases hz with rfl | hz
        · exact h
        · exact hall z hz
      · rintro ⟨k, y, hk, hy, hinfo, hall⟩
        cases k with
        | zero =>
          simp only [List.getElem?_cons_zero, Option.some.injEq] at hk
          subst hk
          rw [h] at hy; cases hy
        | succ k =>
          refine ⟨k, y, by simpa using hk, hy, by rw [hinfo]; congr 2; omega, ?_⟩
          intro z hz
          exact hall z (by rw [List.take_succ_cons]; exact List.mem_cons_of_mem _ hz)

/-- Phase 1 of ENCODE passes exactly when both counts fit and every record below its count is well-formed
(40_encoder R141). -/
theorem encodeError_eq_none {s : State} : encodeError s = none ↔
    s.np.toNat ≤ 112 ∧ s.na.toNat ≤ 112 ∧ (∀ r ∈ s.programs, ProgramWellFormed r) ∧
      ∀ r ∈ s.alarms, AlarmWellFormed r := by
  have hp : (∀ x ∈ s.programs.map fun r => (r.name, r.temperature), checkRec x.1 x.2 = none) ↔
      ∀ r ∈ s.programs, ProgramWellFormed r := by simp [checkRec_eq_none, ProgramWellFormed]
  have ha : (∀ x ∈ s.alarms.map fun r => (r.name, r.temperature), checkRec x.1 x.2 = none) ↔
      ∀ r ∈ s.alarms, AlarmWellFormed r := by simp [checkRec_eq_none, AlarmWellFormed]
  rw [encodeError, show capacity = 112 from rfl]
  by_cases h1 : s.np.toNat > 112
  · rw [if_pos h1]; simp; omega
  · rw [if_neg h1]
    by_cases h2 : s.na.toNat > 112
    · rw [if_pos h2]; simp; omega
    · rw [if_neg h2, ← hp, ← ha]
      rw [← firstBad_eq_none (lb := 0x00) (i := 0), ← firstBad_eq_none (lb := 0x80) (i := 0)]
      have h1' : s.np.toNat ≤ 112 := by omega
      have h2' : s.na.toNat ≤ 112 := by omega
      cases firstBad 0x00 0 (s.programs.map fun r => (r.name, r.temperature)) <;> simp [h1', h2']

/-! ### The image -/

/-- An address outside every entry keeps its byte. -/
theorem readByte_placeEntries_miss (n : Nat) (addr : Nat → Nat) (es : List (List Byte)) : ∀ (i : Nat) (m : Memory) (y : Nat),
    (∀ e ∈ es, e.length = 36) → (∀ j, j < es.length → y < addr (i + j) ∨ addr (i + j) + 36 ≤ y) →
    readByte n (placeEntries addr i es m) y = readByte n m y := by
  induction es with
  | nil => intro i m y _ _; rfl
  | cons e es ih =>
    intro i m y hl h
    have he : e.length = 36 := hl e (by simp)
    rw [placeEntries, ih (i + 1) _ y (fun e' h' => hl e' (List.mem_cons_of_mem _ h'))
      (fun j hj => by have := h (j + 1) (by simpa using hj); rwa [show i + (j + 1) = i + 1 + j by omega] at this),
      readByte_writeSeq, if_neg]
    have := h 0 (by simp)
    rw [Nat.add_zero] at this
    omega

/-- Byte `k` of entry `j` stands at `addr (i + j) + k` when the entries lie one above the other. -/
theorem readByte_placeEntries_hit (n : Nat) (addr : Nat → Nat) (hup : ∀ i j, i < j → addr i + 36 ≤ addr j)
    (es : List (List Byte)) : ∀ (i : Nat) (m : Memory) (j k : Nat) (e : List Byte),
    (∀ e ∈ es, e.length = 36) → es[j]? = some e → k < 36 →
    readByte n (placeEntries addr i es m) (addr (i + j) + k) = e.getD k 0 := by
  induction es with
  | nil => intro i m j k e _ h; simp at h
  | cons d es ih =>
    intro i m j k e hl hj hk
    have hl' : ∀ e ∈ es, e.length = 36 := fun e' h' => hl e' (List.mem_cons_of_mem _ h')
    rw [placeEntries]
    cases j with
    | zero =>
      simp only [List.getElem?_cons_zero, Option.some.injEq] at hj
      subst hj
      rw [readByte_placeEntries_miss n addr es (i + 1) _ _ hl' (fun j _ => .inl ?_)]
      · rw [Nat.add_zero, readByte_writeSeq, if_pos (by rw [hl d (by simp)]; omega), Nat.add_sub_cancel_left]
      · have := hup i (i + 1 + j) (by omega)
        simp only [Nat.add_zero]; omega
    | succ j =>
      rw [show i + (j + 1) = i + 1 + j by omega]
      exact ih (i + 1) _ j k e hl' (by simpa using hj) hk

/-- Placing entries inside IMG keeps the canonical form. -/
theorem wf_placeEntries (addr : Nat → Nat) (es : List (List Byte)) : ∀ (i : Nat) (m : Memory), m.wf →
    (∀ e ∈ es, e.length = 36) → (∀ j, j < es.length → addr (i + j) + 36 ≤ imageSize) →
    Memory.wf (placeEntries addr i es m) := by
  induction es with
  | nil => intro i m hm _ _; exact hm
  | cons e es ih =>
    intro i m hm hl h
    refine ih (i + 1) _ (Memory.wf_writeSeq hm ?_) (fun e' h' => hl e' (List.mem_cons_of_mem _ h')) ?_
    · rw [hl e (by simp)]; exact h 0 (by simp)
    · intro j hj
      have := h (j + 1) (by simpa using hj)
      rwa [show i + (j + 1) = i + 1 + j by omega] at this

/-- What an address listed before stays listed through. -/
theorem written_isSome_placeEntries (addr : Nat → Nat) (es : List (List Byte)) : ∀ (i : Nat) (m : Memory) (y : Nat),
    (written m y).isSome → (written (placeEntries addr i es m) y).isSome := by
  induction es with
  | nil => intro i m y h; exact h
  | cons e es ih => intro i m y h; exact ih (i + 1) _ y (written_isSome_writeSeq m _ y e h)

theorem addrP_up (i j : Nat) (h : i < j) : addrP i + 36 ≤ addrP j := by
  simp only [addrP_eq]; omega

theorem addrA_up (i j : Nat) (h : i < j) : addrA i + 36 ≤ addrA j := by
  simp only [addrA_eq]; omega

theorem length_of_mem_packp {l : List ProgramRecord} : ∀ e ∈ l.map packp, e.length = 36 := by
  intro e he; obtain ⟨r, -, rfl⟩ := List.mem_map.mp he; exact length_packp r

theorem length_of_mem_packa {l : List AlarmRecord} : ∀ e ∈ l.map packa, e.length = 36 := by
  intro e he; obtain ⟨r, -, rfl⟩ := List.mem_map.mp he; exact length_packa r

theorem readByte_fill (n : Nat) (m : Memory) (y : Nat) :
    readByte n (writeSeq m 0 (List.replicate imageSize fillByte)) y = if y < 8192 then 0xFF else readByte n m y := by
  rw [readByte_writeSeq, List.length_replicate, show imageSize = 8192 from rfl]
  by_cases h : y < 8192
  · rw [if_pos (by omega), if_pos h, List.getD_eq_getElem?_getD, List.getElem?_replicate, if_pos (by omega)]
    rfl
  · rw [if_neg (by omega), if_neg h]

/-- A byte of a program's entry. -/
theorem readByte_encodeImage_program (n : Nat) (s : State) (hn : s.programs.length ≤ 112) {i k : Nat} {r : ProgramRecord}
    (hi : s.programs[i]? = some r) (hk : k < 36) : readByte n (encodeImage s) (addrP i + k) = (packp r).getD k 0 := by
  have hlt : i < s.programs.length := (List.getElem?_eq_some_iff.mp hi).1
  rw [encodeImage, readByte_placeEntries_miss n addrA _ 0 _ _ length_of_mem_packa]
  · have := readByte_placeEntries_hit n addrP addrP_up (s.programs.map packp) 0
      (writeSeq s.img 0 (List.replicate imageSize fillByte)) i k (packp r) length_of_mem_packp (by simp [hi]) hk
    rwa [Nat.zero_add] at this
  · intro j _; left; rw [addrP_eq, addrA_eq]; omega

/-- A byte of an alarm's entry. -/
theorem readByte_encodeImage_alarm (n : Nat) (s : State) {i k : Nat} {r : AlarmRecord}
    (hi : s.alarms[i]? = some r) (hk : k < 36) : readByte n (encodeImage s) (addrA i + k) = (packa r).getD k 0 := by
  rw [encodeImage]
  have := readByte_placeEntries_hit n addrA addrA_up (s.alarms.map packa) 0
    (placeEntries addrP 0 (s.programs.map packp) (writeSeq s.img 0 (List.replicate imageSize fillByte)))
    i k (packa r) length_of_mem_packa (by simp [hi]) hk
  rwa [Nat.zero_add] at this

/-- A byte no entry covers is FILL inside IMG (20_memory R57). -/
theorem readByte_encodeImage_fill (n : Nat) (s : State) (y : Nat)
    (hp : ∀ i, i < s.programs.length → y < addrP i ∨ addrP i + 36 ≤ y)
    (ha : ∀ i, i < s.alarms.length → y < addrA i ∨ addrA i + 36 ≤ y) :
    readByte n (encodeImage s) y = if y < 8192 then 0xFF else readByte n s.img y := by
  rw [encodeImage, readByte_placeEntries_miss n addrA _ 0 _ _ length_of_mem_packa (by simpa using ha),
    readByte_placeEntries_miss n addrP _ 0 _ _ length_of_mem_packp (by simpa using hp), readByte_fill]

/-- ENCODE's image is in canonical form when IMG was (20_memory R56). -/
theorem wf_encodeImage {s : State} (h : s.img.wf) (hp : s.programs.length ≤ 112) (ha : s.alarms.length ≤ 112) :
    Memory.wf (encodeImage s) := by
  refine wf_placeEntries _ _ _ _ (wf_placeEntries _ _ _ _ (Memory.wf_writeSeq h ?_) length_of_mem_packp ?_)
    length_of_mem_packa ?_
  · rw [List.length_replicate]; omega
  · intro j hj
    simp only [List.length_map] at hj
    simp only [addrP_eq, imageSize]; omega
  · intro j hj
    simp only [List.length_map] at hj
    simp only [addrA_eq, imageSize]; omega

/-- After ENCODE every byte of IMG has been written (10_state R28). -/
theorem written_encodeImage (s : State) {y : Nat} (h : y < 8192) : (written (encodeImage s) y).isSome := by
  refine written_isSome_placeEntries _ _ _ _ _ (written_isSome_placeEntries _ _ _ _ _ ?_)
  rw [written_writeSeq, List.length_replicate, show imageSize = 8192 from rfl, if_pos (by omega), List.getElem?_replicate,
    if_pos (by omega)]
  rfl

/-- ENCODE of lists that pass its checks (40_encoder R141). -/
theorem execEncode_of_none {s : State} (h : encodeError s = none) :
    execEncode s = .next (((s.setImg (encodeImage s)).setIlen imageSize).succeed) := by
  rw [execEncode, h]

/-- ENCODE of lists that do not (60_exceptions R238). -/
theorem execEncode_of_some {s : State} {e : BlockError} {info : Byte} (h : encodeError s = some (e, info)) :
    execEncode s = .next (raise e info s) := by
  rw [execEncode, h]

end Sys2Proof.Machine
end

