-- ==== Sys2Proof/Laws/Exec.lean ====
section
/-! SUPPORT. Everything a command can do, said once: the error entry with its cause, or the command's own effect. -/

namespace Sys2Proof.Machine

/-- The state ENCODE leaves on success (40_encoder R141). -/
def encodedState (s : State) : State := ((s.setImg (encodeImage s)).setIlen imageSize).succeed

/-- The state DECODE leaves on success (41_decoder R180). -/
def decodedState (s : State) : State :=
  ((s.setPrograms (decodedPrograms s)).setAlarms (decodedAlarms s)).succeed

/-- The state CSGEN of the entry at `x` leaves (42_checksum R212). -/
def generatedState (x : Nat) (s : State) : State :=
  ((s.memWrite (x + 35) [imageSum s x]).setCsval (imageSum s x)).succeed

/-- The state CSVFY of the entry at `x` leaves (42_checksum R213). -/
def verifiedState (x : Nat) (s : State) : State :=
  ((s.setCsval (imageSum s x)).setCsok (decide (s.imgByte (x + 35) = imageSum s x))).succeed

/-- Why a command ends in an error, with its `info` (60_exceptions R231 to R235). -/
def ErrorCause (i : Instr) (s : State) (e : BlockError) (info : Byte) : Prop :=
  match i with
  | .encode => encodeError s = some (e, info)
  | .decode => s.ilen.toNat < 8192 ∧ e = .formatError ∧ info = 0x00
  | .csgen _ sl => sl = 7 ∧ e = .illegalCommand ∧ info = 0x00
  | .csvfy _ sl => sl = 7 ∧ e = .illegalCommand ∧ info = 0x00

/-- When a command succeeds, and the state it leaves. -/
def Success (i : Instr) (s t : State) : Prop :=
  match i with
  | .encode => encodeError s = none ∧ t = encodedState s
  | .decode => ¬ s.ilen.toNat < 8192 ∧ t = decodedState s
  | .csgen b sl => sl ≠ 7 ∧ t = generatedState (eaAddr b sl) s
  | .csvfy b sl => sl ≠ 7 ∧ t = verifiedState (eaAddr b sl) s

/-- A command ends in the error entry for a cause, or succeeds; nothing else (60_exceptions R230). -/
theorem exec_outcome (i : Instr) (s : State) :
    (∃ e info, ErrorCause i s e info ∧ exec i s = .next (raise e info s)) ∨
      ∃ t, Success i s t ∧ exec i s = .next t := by
  cases i with
  | encode =>
    cases h : encodeError s with
    | none => exact .inr ⟨_, ⟨h, rfl⟩, execEncode_of_none h⟩
    | some e => exact .inl ⟨e.1, e.2, h, execEncode_of_some h⟩
  | decode =>
    by_cases h : s.ilen.toNat < 8192
    · exact .inl ⟨_, _, ⟨h, rfl, rfl⟩, execDecode_short h⟩
    · exact .inr ⟨_, ⟨h, rfl⟩, execDecode_whole h⟩
  | csgen b sl =>
    by_cases h : sl = 7
    · subst h; exact .inl ⟨_, _, ⟨rfl, rfl, rfl⟩, rfl⟩
    · exact .inr ⟨_, ⟨h, rfl⟩, execCsgen_legal h b s⟩
  | csvfy b sl =>
    by_cases h : sl = 7
    · subst h; exact .inl ⟨_, _, ⟨rfl, rfl, rfl⟩, rfl⟩
    · exact .inr ⟨_, ⟨h, rfl⟩, execCsvfy_legal h b s⟩

/-- The same, of a next state that is given. -/
theorem exec_cases {i : Instr} {s t : State} (h : exec i s = .next t) :
    (∃ e info, ErrorCause i s e info ∧ t = raise e info s) ∨ Success i s t := by
  rcases exec_outcome i s with ⟨e, info, hc, h'⟩ | ⟨u, hs, h'⟩ <;> rw [h] at h' <;> cases h'
  · exact .inl ⟨e, info, hc, rfl⟩
  · exact .inr hs

/-- A command that succeeds writes ERR and ERRIDX 0 and leaves SERR and the reserved bits (10_state R35). -/
theorem Success.flags {i : Instr} {s t : State} (h : Success i s t) : SuccessFlags s t := by
  cases i with
  | encode => obtain ⟨-, rfl⟩ := h; simp [SuccessFlags, encodedState]
  | decode => obtain ⟨-, rfl⟩ := h; simp [SuccessFlags, decodedState]
  | csgen b sl => obtain ⟨-, rfl⟩ := h; simp [SuccessFlags, generatedState]
  | csvfy b sl => obtain ⟨-, rfl⟩ := h; simp [SuccessFlags, verifiedState]

end Sys2Proof.Machine
end

