-- ==== Sys2Proof/Laws/Image.lean ====
section
/-! SUPPORT. The encoded image slot by slot, and the lists and counts DECODE leaves. -/

namespace Sys2Proof.Machine

/-- With fitting lists ENCODE works on all of P (10_state R22). -/
theorem programs_of_fit {s : State} (h : ListsFit s) : s.programs = s.p := by
  rw [State.programs, List.take_of_length_le h.1.le]

/-- With fitting lists ENCODE works on all of A (10_state R24). -/
theorem alarms_of_fit {s : State} (h : ListsFit s) : s.alarms = s.a := by
  rw [State.alarms, List.take_of_length_le h.2.1.le]

/-- "ENCODE cannot fail" (40_encoder R141). -/
theorem encodeError_of_accepts {s : State} (h : EncodeAccepts s) : encodeError s = none := by
  rw [encodeError_eq_none, programs_of_fit h.1, alarms_of_fit h.1]
  exact ⟨h.1.2.2.1, h.1.2.2.2, h.2.1, h.2.2⟩

/-- A program slot of the encoded image (40_encoder R142 a). -/
theorem encodeImage_programSlot {s : State} (h : ListsFit s) (n : Nat) {b sl k : Nat} (hb : b < 16) (hs : sl < 7)
    (hk : k < 36) : readByte n (encodeImage s) (256 * b + 36 * sl + k) =
      match s.p[7 * b + sl]? with
      | some r => (packp r).getD k 0
      | none => 0xFF := by
  have hp := programs_of_fit h
  obtain ⟨h1, -, h3, -⟩ := h
  have hd : (7 * b + sl) / 7 = b := by omega
  have hm : (7 * b + sl) % 7 = sl := by omega
  cases hr : s.p[7 * b + sl]? with
  | some r =>
    have := readByte_encodeImage_program n s (by rw [hp]; omega) (i := 7 * b + sl) (by rw [hp]; exact hr) hk
    rwa [addrP_eq, hd, hm] at this
  | none =>
    have hlen : s.p.length ≤ 7 * b + sl := List.getElem?_eq_none_iff.mp hr
    rw [readByte_encodeImage_fill n s, if_pos (by omega)]
    · intro i hi
      rw [hp] at hi
      have := addrP_up i (7 * b + sl) (by omega)
      rw [addrP_eq (7 * b + sl), hd, hm] at this
      omega
    · intro i _; left; rw [addrA_eq]; omega

/-- An alarm slot of the encoded image, block `16 + b` (40_encoder R142 a). -/
theorem encodeImage_alarmSlot {s : State} (h : ListsFit s) (n : Nat) {b sl k : Nat} (hb : b < 16) (hs : sl < 7)
    (hk : k < 36) : readByte n (encodeImage s) (256 * (16 + b) + 36 * sl + k) =
      match s.a[7 * b + sl]? with
      | some r => (packa r).getD k 0
      | none => 0xFF := by
  have hp := programs_of_fit h
  have ha := alarms_of_fit h
  obtain ⟨h1, h2, h3, h4⟩ := h
  have hd : (7 * b + sl) / 7 = b := by omega
  have hm : (7 * b + sl) % 7 = sl := by omega
  cases hr : s.a[7 * b + sl]? with
  | some r =>
    have := readByte_encodeImage_alarm n s (i := 7 * b + sl) (by rw [ha]; exact hr) hk
    rwa [addrA_eq, hd, hm] at this
  | none =>
    have hlen : s.a.length ≤ 7 * b + sl := List.getElem?_eq_none_iff.mp hr
    rw [readByte_encodeImage_fill n s, if_pos (by omega)]
    · intro i hi
      rw [hp] at hi
      right; rw [addrP_eq]; omega
    · intro i hi
      rw [ha] at hi
      have := addrA_up i (7 * b + sl) (by omega)
      rw [addrA_eq (7 * b + sl), hd, hm] at this
      omega

/-- The filler of a block lies outside every slot (20_memory R53). -/
theorem filler_off_slot (q r k b : Nat) (hr : r < 7) (hk : 252 ≤ k) (hk2 : k < 256) :
    256 * b + k < 256 * q + 36 * r ∨ 256 * q + 36 * r + 36 ≤ 256 * b + k := by
  rcases Nat.lt_or_ge b q with h | h
  · left; omega
  · right; omega

/-- The filler of the encoded image (40_encoder R142 a). -/
theorem encodeImage_filler (s : State) (n : Nat) {b k : Nat} (hb : b < 32) (h1 : 252 ≤ k) (h2 : k < 256) :
    readByte n (encodeImage s) (256 * b + k) = 0xFF := by
  rw [readByte_encodeImage_fill n s, if_pos (by omega)]
  · intro i _; rw [addrP_eq]; exact filler_off_slot _ _ _ _ (Nat.mod_lt _ (by decide)) h1 h2
  · intro i _; rw [addrA_eq]; exact filler_off_slot _ _ _ _ (Nat.mod_lt _ (by decide)) h1 h2

/-- ENCODE of fitting lists writes nothing above IMG (20_memory R56). -/
theorem encodeImage_above {s : State} (h : ListsFit s) (n : Nat) {y : Nat} (hy : 8192 ≤ y) :
    readByte n (encodeImage s) y = readByte n s.img y := by
  have hp := programs_of_fit h
  have ha := alarms_of_fit h
  obtain ⟨h1, h2, h3, h4⟩ := h
  rw [readByte_encodeImage_fill n s, if_neg (by omega)]
  · intro i hi; rw [hp] at hi; rw [addrP_eq]; right; omega
  · intro i hi; rw [ha] at hi; rw [addrA_eq]; right; omega

/-- "`np` and `na` are at most 112" (41_decoder R180). -/
theorem length_decodedPrograms_le (s : State) : (decodedPrograms s).length ≤ 112 := by
  rw [decodedPrograms_eq]; exact length_section_le _

/-- "`np` and `na` are at most 112" (41_decoder R180). -/
theorem length_decodedAlarms_le (s : State) : (decodedAlarms s).length ≤ 112 := by
  rw [decodedAlarms_eq]; exact length_section_le _

@[simp] theorem decodedState_p (s : State) : (decodedState s).p = decodedPrograms s := by
  simp [decodedState, List.take_of_length_le (length_decodedPrograms_le s)]

@[simp] theorem decodedState_a (s : State) : (decodedState s).a = decodedAlarms s := by
  simp [decodedState, List.take_of_length_le (length_decodedAlarms_le s)]

@[simp] theorem decodedState_np (s : State) : (decodedState s).np.toNat = (decodedPrograms s).length := by
  have := length_decodedPrograms_le s
  simp [decodedState]
  omega

@[simp] theorem decodedState_na (s : State) : (decodedState s).na.toNat = (decodedAlarms s).length := by
  have := length_decodedAlarms_le s
  simp [decodedState]
  omega

end Sys2Proof.Machine
end

