-- ==== Sys2Proof/Laws/PerInstr.lean ====
section
/-! SUPPORT. What is said of every command as syntax, one lemma per constructor of Instr. -/

namespace Sys2Proof.Laws.MatchesRow

/-- The command's word matches its row of the command map: `w & mask = match` (30_encoding R105). -/
def Statement (i : Instr) : Prop := encodeWord i &&& (commandRow i).mask = (commandRow i).pattern

theorem encode : Statement .encode := by unfold Statement; decide

theorem decode : Statement .decode := by unfold Statement; decide

theorem csgen (b : BitVec 5) (sl : BitVec 3) : Statement (.csgen b sl) := by
  revert b sl; unfold Statement; decide +kernel

theorem csvfy (b : BitVec 5) (sl : BitVec 3) : Statement (.csvfy b sl) := by
  revert b sl; unfold Statement; decide +kernel

end Sys2Proof.Laws.MatchesRow
end

