-- ==== Sys2Proof/Laws/Transactions.lean ====
section
/-! SUPPORT. Everything a transaction and a step can do, said once. -/

namespace Sys2Proof.Machine

/-- The test of a name is the one against NAME_IN_MAX (20_memory R70). -/
theorem presentableName_iff (n : List Byte) : presentableName n = true ↔ n.length ≤ Config.nameInMax := by
  rw [presentableName, Bool.or_eq_true, decide_eq_true_eq, decide_eq_true_eq]
  change n.length ≤ 26 ∨ n.length ≤ 26 + _ ↔ n.length ≤ 26 + _
  omega

/-- What a transaction that ends in a next state has done (20_memory R70 to R77, 70_reset R260). -/
def Performed (t : Transaction) (s u : State) : Prop :=
  match t with
  | .setp l => l.length ≤ 255 ∧ (∀ r ∈ l, r.name.length ≤ Config.nameInMax) ∧ u = s.setPrograms l
  | .seta l => l.length ≤ 255 ∧ (∀ r ∈ l, r.name.length ≤ Config.nameInMax) ∧ u = s.setAlarms l
  | .getp i => ∃ r, (s.p.take (min s.np.toNat capacity))[i]? = some r ∧ u = s.answer (.program r)
  | .geta i => ∃ r, (s.a.take (min s.na.toNat capacity))[i]? = some r ∧ u = s.answer (.alarm r)
  | .rdcsr r => u = s.answer (.csr (csrValue r s))
  | .loadimg bs => u = (s.memWrite 0 (bs.take imageSize)).setIlen bs.length
  | .rdimg x => u = s.answer (.byte (s.imgByte x.toNat))
  | .wrimg x v => u = s.memWrite x.toNat [v]
  | .cmd w => (∃ i, decodeWord w = .ok i ∧ exec i s = .next u) ∨
      (∃ e, decodeWord w = .error e) ∧ u = raise .illegalCommand 0x00 s
  | .reset => u = { State.reset with resets := s.resets + 1, inbox := s.inbox }

/-- A transaction that ends in a next state has done what its rule says, and nothing else. -/
theorem perform_cases {t : Transaction} {s u : State} (h : perform t s = .next u) : Performed t s u := by
  cases t with
  | setp l =>
    rw [perform, hostSetp] at h
    split at h <;> cases h
    rename_i hl
    exact ⟨hl.1, by simpa [presentableName_iff] using hl.2, rfl⟩
  | seta l =>
    rw [perform, hostSeta] at h
    split at h <;> cases h
    rename_i hl
    exact ⟨hl.1, by simpa [presentableName_iff] using hl.2, rfl⟩
  | getp i =>
    rw [perform, hostGetp] at h
    split at h <;> cases h
    exact ⟨_, ‹_›, rfl⟩
  | geta i =>
    rw [perform, hostGeta] at h
    split at h <;> cases h
    exact ⟨_, ‹_›, rfl⟩
  | rdcsr r => cases h; rfl
  | loadimg bs => cases h; rfl
  | rdimg x => cases h; rfl
  | wrimg x v => cases h; rfl
  | cmd w =>
    rw [perform, hostCmd] at h
    split at h
    · exact .inl ⟨_, ‹_›, h⟩
    · cases h; exact .inr ⟨⟨_, ‹_›⟩, rfl⟩
  | reset => cases h; rfl

/-- A step that ends in a next state was idle, or performed the first transaction of the inbox (log entry 2). -/
theorem step_cases {s u : State} (h : step s = .next u) :
    s.inbox = [] ∧ u = s ∨ ∃ t rest, s.inbox = t :: rest ∧ Performed t (s.accept rest) u := by
  rw [step] at h
  split at h
  · cases h; exact .inl ⟨‹_›, rfl⟩
  · exact .inr ⟨_, _, ‹_›, perform_cases h⟩

/-- A run of no step. -/
theorem run_zero (s : State) : core.run 0 s = .next s := rfl

/-- One step more of a run. -/
theorem run_succ (n : Nat) {s u : State} (h : step s = .next u) : core.run (n + 1) s = core.run n u := by
  change core.step s = .next u at h
  simp only [Host.Core.run, h]

/-- A run that goes on after its first step has a next state there. -/
theorem run_succ_cases {n : Nat} {s t : State} (h : core.run (n + 1) s = .next t) :
    ∃ u, step s = .next u ∧ core.run n u = .next t := by
  cases hs : step s with
  | next u => exact ⟨u, rfl, run_succ n hs ▸ h⟩
  | fault r => cases r
  | refused r =>
    change core.step s = .refused r at hs
    simp [Host.Core.run, hs] at h

end Sys2Proof.Machine
end

