-- ==== Sys2Proof/Tests/Slice0.lean ====
section
/-! SUPPORT. Tests: words and values written out from the spec, one step on a small state; and for each statement with
hypotheses a state and operands that meet them. -/

namespace Sys2Proof.Tests

open Sys2Proof Sys2Proof.Machine

/-! ### Helpers -/

/-- The next state of an outcome, if it has one. -/
def nextOf (o : Host.Outcome State Fault Refusal) : Option State :=
  match o with
  | .next t => some t
  | .fault _ => none
  | .refused _ => none

/-- The record of vector V1 (95_test_vectors 2.3): "Rice", 100, Medium, 00:20:00, AtSetTemperature, StopCooking. -/
def rice : ProgramRecord := ⟨[0x52, 0x69, 0x63, 0x65], 100, 1, false, 0, 20, 0, 1, 1⟩

/-- The entry V1 (95_test_vectors 2.3). -/
def riceEntry : List Byte :=
  [0x52, 0x69, 0x63, 0x65] ++ List.replicate 26 0x00 ++ [0x64, 0x25, 0x00, 0x14, 0x00, 0x20]

/-- The record of vector A1 (95_test_vectors 2.4): "Done", 300. -/
def done : AlarmRecord := ⟨[0x44, 0x6F, 0x6E, 0x65], 300⟩

/-- One program, one alarm loaded. -/
def listState : State := { State.reset with p := [rice], np := 1, a := [done], na := 1 }

/-- These bytes written at slot (0,0), nothing else; SERR and CSOK as `st` has them. -/
def slotState (bs : List Byte) (st : BitVec 8) : State := { State.reset with img := writeSeq [] 0 bs, status := st }

/-- Programs loaded, as many as the count says. -/
def programsState (l : List ProgramRecord) (n : BitVec 8) : State := { State.reset with p := l, np := n }

/-! ### Command words (95_test_vectors 2.8, 30_encoding R104 to R107) -/

/-- Slot 7 is refused, slots 0 to 6 and every block pass (30_encoding R106). -/
theorem test_wellFormed_refuses_slot_seven :
    (Instr.csgen 0 7).wellFormed = false ∧ (Instr.csvfy 31 7).wellFormed = false ∧
    (Instr.csgen 31 6).wellFormed = true ∧ (Instr.csvfy 0 0).wellFormed = true ∧
    Instr.encode.wellFormed = true ∧ Instr.decode.wellFormed = true := by decide

theorem test_decode_encode : decodeWord 0b00000001_00000000 = .ok .encode := by decide
theorem test_decode_decode : decodeWord 0b00000010_00000000 = .ok .decode := by decide
/-- CSGEN 16,0: opcode 3, block 10000, slot 000. -/
theorem test_decode_csgen : decodeWord 0b00000011_10000_000 = .ok (.csgen 16 0) := by decide
/-- CSVFY 17,3: opcode 4, block 10001, slot 011 (30_encoding R106's example). -/
theorem test_decode_csvfy : decodeWord 0b00000100_10001_011 = .ok (.csvfy 17 3) := by decide
theorem test_encode_csvfy : encodeWord (.csvfy 17 3) = 0x048B := by decide

/-- Each kind of illegal word, at its edges. -/
theorem test_decode_refuses_by_name :
    decodeWord 0x0000 = .error (.noSuchOpcode 0x00) ∧ decodeWord 0x0500 = .error (.noSuchOpcode 0x05) ∧
    decodeWord 0xFFFF = .error (.noSuchOpcode 0xFF) ∧ decodeWord 0x0101 = .error (.operandNotZero 0x01 0x01) ∧
    decodeWord 0x02FF = .error (.operandNotZero 0x02 0xFF) ∧ decodeWord 0x0307 = .error (.reservedSlot 0x03 0) ∧
    decodeWord 0x04FF = .error (.reservedSlot 0x04 31) := by decide

/-! ### Micro-operations (95_test_vectors 2.1 to 2.7) -/

theorem test_addresses :
    [off 0 6, off 1 0, off 15 6, off 16 1, off 31 6] = [216, 256, 4056, 4132, 8152] ∧
    [addrP 6, addrP 7, addrP 111, addrA 0, addrA 7, addrA 111] = [216, 256, 4056, 4096, 4352, 8152] := by decide

theorem test_ord : [ord 3 4, ord 4 4, ord 255 4, ord 2 3, ord 3 3, ord 200 3] = [3, 0, 0, 2, 0, 0] := by decide

theorem test_tsplit :
    [tsplit 0, tsplit 255, tsplit 256, tsplit 300, tsplit 482] =
      [(0, false), (255, false), (1, true), (45, true), (227, true)] := by decide

theorem test_ctrlpack :
    [ctrlpack false 1 1 1, ctrlpack true 0 0 0, ctrlpack false 3 0 0, ctrlpack false 0 3 0, ctrlpack true 3 3 2] =
      [0x25, 0x80, 0x60, 0x0C, 0xEE] := by decide

/-- A4 and V3: a name is padded, or cut without a signal. -/
theorem test_nameput :
    nameput [0x41, 0x42] 4 = [0x41, 0x42, 0x00, 0x00] ∧ nameput [0x41, 0x42, 0x43] 2 = [0x41, 0x42] ∧
    nameput [] 3 = [0x00, 0x00, 0x00] := by decide

theorem test_packp_V1 : packp rice = riceEntry := by decide

/-- V5: three unrecognised label codes, checksum 0x90. -/
theorem test_packp_V5 : (packp ⟨[0x58], 50, 4, false, 1, 2, 3, 3, 200⟩).drop 30 =
    [0x32, 0x00, 0x01, 0x02, 0x03, 0x90] := by decide

theorem test_packa_A1 : packa done =
    [0x44, 0x6F, 0x6E, 0x65] ++ List.replicate 26 0x00 ++ [0x2D, 0x80, 0x00, 0x00, 0x00, 0x33] := by decide

theorem test_tjoin :
    [tjoin 255 false, tjoin 0 true, tjoin 1 true, tjoin 227 true, tjoin 255 true] = [255, 255, 256, 482, 510] := by
  decide

theorem test_lab : [lab 3 4, lab 3 3, lab 2 3] = [3, 0, 2] := by decide

theorem test_ctrlunpack :
    [ctrlunpack 0x25, ctrlunpack 0x13, ctrlunpack 0x7F, ctrlunpack 0xEE, ctrlunpack 0x10] =
      [⟨false, 1, 1, 1⟩, ⟨false, 0, 0, 3⟩, ⟨false, 3, 3, 3⟩, ⟨true, 3, 3, 2⟩, ⟨false, 0, 0, 0⟩] := by decide

theorem test_timer :
    timerenc true 9 9 9 = (0, 0, 0) ∧ timerenc false 200 99 99 = (200, 99, 99) ∧
    timerdec 0 0 0 = ⟨true, 0, 0, 0⟩ ∧ timerdec 0 0 1 = ⟨false, 0, 0, 1⟩ := by decide

/-- Both ends go, the inner space and a byte outside WS stay. -/
theorem test_trim :
    trim ws [0x20, 0x20, 0x48, 0x20, 0x69, 0x20, 0x09] = [0x48, 0x20, 0x69] ∧ trim ws [0x20, 0x20] = [] ∧
    trim ws [0x20, 0xFF, 0x41] = [0xFF, 0x41] ∧ trim ws [0xA0, 0x41] = [0xA0, 0x41] := by decide

theorem test_unpkp_V1 : unpkp ws riceEntry = some rice := by decide

/-- U13: byte 0 is 0x41 and every other byte 0xFF. -/
theorem test_unpkp_U13 : unpkp ws (0x41 :: List.replicate 35 0xFF) =
    some ⟨0x41 :: List.replicate 25 0xFF, 510, 3, false, 255, 255, 255, 0, 3⟩ := by decide

/-- U11: of byte 31 only bit 7; U7: a name that ends at byte 0. -/
theorem test_unpka :
    unpka ws ([0x41, 0x6C] ++ List.replicate 28 0x00 ++ [0x2C, 0xFF, 0, 0, 0, 0]) = some ⟨[0x41, 0x6C], 299⟩ ∧
    unpka ws (0x00 :: 0x48 :: List.replicate 34 0x00) = none := by decide

theorem test_csum :
    csum (List.replicate 35 0x00) = 0x00 ∧ csum (List.replicate 35 0xFF) = 0xDD ∧
    csum (List.replicate 35 0x80) = 0x80 ∧ csum riceEntry = 0x20 := by decide

/-! ### Commands, one step each -/

/-- CSGEN after the patch of 42_checksum R212's example: 0x21 at address 35, CSVAL 0x21, CSOK and SERR kept. -/
theorem test_csgen_repairs :
    (nextOf (exec (.csgen 0 0) (slotState (riceEntry.set 30 0x65) 0x95))).map
      (fun t => (t.imgByte 35, t.csval, t.status)) = some (0x21, 0x21, 0x90) := by decide +kernel

/-- CSGEN of slot 7: IllegalCommand (95_test_vectors 2.7). -/
theorem test_csgen_slot_seven :
    nextOf (exec (.csgen 0 7) State.reset) = some { State.reset with status := 0x85 } := by decide

/-- CSVFY of V1: CSVAL 0x20, CSOK 1, ERR 0 (95_test_vectors 2.7). -/
theorem test_csvfy_match :
    (nextOf (exec (.csvfy 0 0) (slotState riceEntry 0x05))).map (fun t => (t.csval, t.status)) = some (0x20, 0x10) := by
  decide +kernel

/-- CSVFY of an empty slot: CSVAL 0xDD, CSOK 0, SERR kept (95_test_vectors 2.7). -/
theorem test_csvfy_mismatch :
    (nextOf (exec (.csvfy 0 0) (slotState (List.replicate 36 0xFF) 0x90))).map (fun t => (t.csval, t.status)) =
      some (0xDD, 0x80) := by decide +kernel

/-- ENCODE of V1 and A1: bytes of both entries, the slot after, the filler, ILEN and STATUS (95_test_vectors Programs 1, 2). -/
theorem test_encode_writes :
    (nextOf (exec .encode { listState with status := 0x15 })).map (fun t =>
      (t.ilen, t.status, [30, 35, 36, 252, 4096, 4126, 4127, 4131, 4132, 8191].map t.imgByte)) =
      some (8192, 0x10, [0x64, 0x20, 0xFF, 0xFF, 0x44, 0x2D, 0x80, 0x33, 0xFF, 0xFF]) := by decide +kernel

/-- ENCODE reports NameError before DomainError, and the record's index (95_test_vectors 2.9). -/
theorem test_encode_error_order :
    (nextOf (exec .encode (programsState [rice, { rice with name := [0xFF, 0x41], temperature := 500 }] 2))).map
      (fun t => (t.status, t.erridx, t.ilen)) = some (0x83, 0x01, 0) := by decide

/-- DECODE right after reset: FormatError (41_decoder R183 e). -/
theorem test_decode_format_error :
    nextOf (exec .decode State.reset) = some { State.reset with status := 0x81 } := by decide

/-- DECODE finds a record behind an empty slot and compacts (41_decoder R183 d). -/
theorem test_decode_slots_compacts :
    decodeSlots (unpkp ws) 3 (List.replicate 36 0xFF ++ riceEntry ++ List.replicate 36 0x00) = [rice] := by decide

/-! ### Host transactions -/

/-- H-LOADIMG of a short image (20_memory R74). -/
theorem test_loadimg_short :
    (nextOf (perform (.loadimg [0x01, 0x02]) (slotState [0x09, 0x09, 0x09] 0))).map
      (fun t => (t.ilen, t.imgByte 1, t.imgByte 2)) = some (2, 0x02, 0x09) := by decide

/-- H-WRIMG writes one byte and not ILEN (20_memory R76). -/
theorem test_wrimg :
    (nextOf (perform (.wrimg 8191 0xAB) State.reset)).map (fun t => (t.ilen, t.imgByte 8191)) = some (0, 0xAB) := by
  decide

/-- H-SETP of 113 records: the count remembers them, the file holds 112 (20_memory R70). -/
theorem test_setp_drops :
    (nextOf (perform (.setp (List.replicate 113 rice)) State.reset)).map (fun t => (t.np, t.p.length)) =
      some (113, 112) := by decide +kernel

/-- The first step after reset with a placed word runs it. -/
theorem test_step_runs_placed_word :
    (nextOf (step (State.reset.withFetchWord 16 0xFFFF))).map (fun t => (t.status, t.erridx, t.inbox)) =
      some (0x85, 0x00, []) := by decide

/-! ### Witnesses: for each statement with hypotheses, what meets them -/

theorem rice_wellFormed : ProgramWellFormed rice := by unfold ProgramWellFormed; decide
theorem done_wellFormed : AlarmWellFormed done := by unfold AlarmWellFormed; decide
theorem listState_fit : ListsFit listState := by unfold ListsFit; decide
theorem listState_accepts : EncodeAccepts listState :=
  ⟨listState_fit, List.forall_mem_singleton.mpr rice_wellFormed, List.forall_mem_singleton.mpr done_wellFormed⟩
theorem listState_encodes : exec .encode listState = .next (encodedState listState) :=
  execEncode_of_none (encodeError_of_accepts listState_accepts)

/-- `programsState l n` after an ENCODE that ends in an error. -/
theorem encode_fails {s : State} {e : BlockError} {info : Byte} (h : encodeError s = some (e, info)) :
    exec .encode s = .next (raise e info s) := execEncode_of_some h

theorem witness_DecodeOfEncodeIsIdentity :
    Instr.encode.wellFormed = true ∧ Instr.decode.wellFormed = true ∧
    (Instr.csgen 31 6).wellFormed = true ∧ (Instr.csvfy 0 0).wellFormed = true := by decide

theorem witness_DecodedWordsAreEncodings :
    decodeWord 0x0100 = .ok .encode ∧ decodeWord 0x0200 = .ok .decode ∧ decodeWord 0x0300 = .ok (.csgen 0 0) ∧
    decodeWord 0x04FE = .ok (.csvfy 31 6) := by decide

/-- Both sides of each clause of the command map at its boundary. -/
theorem witness_CommandMapSelectsByMatchAndMask :
    ((0x0100 : CmdWord) &&& 0xFFFF = 0x0100) ∧ ((0x0200 : CmdWord) &&& 0xFFFF = 0x0200) ∧
    ((0x0306 : CmdWord) &&& 0xFF00 = 0x0300 ∧ (6 : BitVec 3) ≠ 7 ∧ (0 : BitVec 5).toNat = 0x0306 % 256 / 8) ∧
    ((0x04FE : CmdWord) &&& 0xFF00 = 0x0400 ∧ (31 : BitVec 5).toNat = 0x04FE % 256 / 8) := by decide

/-- One word for each clause of the list of illegal words. -/
theorem witness_IllegalWordsRaiseIllegalCommand :
    (∀ i, decodeWord 0x00FF ≠ .ok i) ∧ (∀ i, decodeWord 0x0500 ≠ .ok i) ∧ (∀ i, decodeWord 0x0101 ≠ .ok i) ∧
    (∀ i, decodeWord 0x0201 ≠ .ok i) ∧ (∀ i, decodeWord 0x0307 ≠ .ok i) ∧ ∀ i, decodeWord 0x04FF ≠ .ok i := by
  refine ⟨?_, ?_, ?_, ?_, ?_, ?_⟩ <;> intro i h <;> cases h

theorem witness_StepRunsTheDecodedCommand :
    { State.reset with inbox := [.cmd 0x0306, .reset] }.inbox = [.cmd 0x0306, .reset] ∧
    decodeWord 0x0306 = .ok (.csgen 0 6) ∧ decodeTableWord 16 0x0306 = some (.csgen 0 6) := by decide

theorem witness_ErrorsChangeOnlyStatusAndErridx :
    exec .decode State.reset = .next (raise .formatError 0x00 State.reset) ∧
    perform (.cmd 0x0000) State.reset = .next (raise .illegalCommand 0x00 State.reset) ∧
    statusErr (raise .formatError 0x00 State.reset).status ≠ 0 ∧
    statusErr (raise .illegalCommand 0x00 State.reset).status ≠ 0 := ⟨rfl, rfl, by decide, by decide⟩

/-- A success of each command, and an error. -/
theorem witness_FlagEffectsByCommand :
    (exec .encode listState = .next (encodedState listState) ∧ statusErr (encodedState listState).status = 0) ∧
    (∃ t, exec .decode { State.reset with ilen := 8192 } = .next t ∧ statusErr t.status = 0) ∧
    (∃ t, exec (.csgen 31 6) State.reset = .next t ∧ statusErr t.status = 0) ∧
    (∃ t, exec (.csvfy 0 0) State.reset = .next t ∧ statusErr t.status = 0) ∧
    ∃ t, exec .decode State.reset = .next t ∧ statusErr t.status ≠ 0 :=
  ⟨⟨listState_encodes, by simp [encodedState]⟩, ⟨_, execDecode_whole (by decide), by simp⟩,
    ⟨_, execCsgen_legal (by decide) _ _, by simp⟩, ⟨_, execCsvfy_legal (by decide) _ _, by simp⟩,
    ⟨_, rfl, by decide⟩⟩

theorem witness_NoCommandReadsAFlag : (0 : BitVec 3) ≠ 7 ∧ (6 : BitVec 3) ≠ 7 := by decide

theorem witness_OnlyResetClearsSerr :
    ∃ t, step { State.reset with status := 0x85, inbox := [.rdcsr .status] } = .next t ∧
    { State.reset with status := 0x85, inbox := [Transaction.rdcsr .status] }.inbox.head? ≠ some .reset ∧
    statusSerr { State.reset with status := 0x85, inbox := [.rdcsr .status] }.status = true :=
  ⟨_, rfl, by decide, by decide⟩

/-- A good state that a run from reset reaches with one command waiting. -/
def goodState : State := { State.reset with p := [rice], np := 1, status := 0x80, inbox := [.cmd 0x0306] }

theorem goodState_inv : StateInv goodState where
  imgWf := Memory.wf_nil
  ilenMax := by decide
  ilenWritten := fun x hx => absurd hx (Nat.not_lt_zero x)
  pLength := by decide
  aLength := by decide
  pNames := List.forall_mem_singleton.mpr (Nat.le_add_right_of_le (by decide))
  aNames := fun _ hn => absurd hn List.not_mem_nil
  reservedZero := by decide
  errCode := by decide
  errSticky := by decide
  errIdxZero := by decide

/-- The same with SERR 0: what the run of one CSGEN starts from. -/
def cleanState : State := { goodState with status := 0x00 }

theorem cleanState_inv : StateInv cleanState where
  imgWf := goodState_inv.imgWf
  ilenMax := goodState_inv.ilenMax
  ilenWritten := goodState_inv.ilenWritten
  pLength := goodState_inv.pLength
  aLength := goodState_inv.aLength
  pNames := goodState_inv.pNames
  aNames := goodState_inv.aNames
  reservedZero := by decide
  errCode := by decide
  errSticky := by decide
  errIdxZero := by decide

theorem cleanState_step : step cleanState = .next (generatedState 216 (cleanState.accept [])) :=
  execCsgen_legal (sl := 6) (by decide) 0 (cleanState.accept [])

theorem witness_SerrZeroMeansNoCommandFailed :
    StateInv cleanState ∧ .reset ∉ cleanState.inbox ∧ (1 : Nat) ≤ 1 ∧
    core.run 1 cleanState = .next (generatedState 216 (cleanState.accept [])) ∧
    NoCommandFailed (generatedState 216 (cleanState.accept [])) := by
  refine ⟨cleanState_inv, by decide, le_rfl, run_succ 0 cleanState_step, ?_⟩
  unfold NoCommandFailed generatedState
  simp [cleanState]
  decide

theorem witness_StepKeepsTheInvariant :
    StateInv cleanState ∧ step cleanState = .next (generatedState 216 (cleanState.accept [])) :=
  ⟨cleanState_inv, cleanState_step⟩

/-- ILEN 8191 ends in FormatError, 8192 does not. -/
theorem witness_FormatErrorExactlyWhenImageShort :
    (∃ t, exec .decode { State.reset with ilen := 8191 } = .next t ∧ statusErr t.status = 1) ∧
    ∃ t, exec .decode { State.reset with ilen := 8192 } = .next t ∧ statusErr t.status ≠ 1 :=
  ⟨⟨_, execDecode_short (by decide), by decide⟩, ⟨_, execDecode_whole (by decide), by simp⟩⟩

/-- NP = 113; NP = 112 and NA = 113; and the error reached. -/
theorem witness_CapacityErrorExactlyWhenCountTooLarge :
    { State.reset with np := 113 }.np.toNat > 112 ∧
    (¬ { State.reset with np := 112, na := 113 }.np.toNat > 112 ∧
      { State.reset with np := 112, na := 113 }.na.toNat > 112) ∧
    ∃ t, exec .encode { State.reset with np := 113 } = .next t ∧ statusErr t.status = 2 :=
  ⟨by decide, by decide, ⟨_, encode_fails (e := .capacityError) (info := 0x00) (by decide), by decide⟩⟩

/-- A good program, then one with a bad name, or with the least bad temperature; the same for alarms. -/
def badName : ProgramRecord := { rice with name := [0xFF] }
def badTemp : ProgramRecord := { rice with temperature := 483 }
def badAlarmName : AlarmRecord := { done with name := [0xFF, 0x41] }
def badAlarmTemp : AlarmRecord := { done with temperature := 511 }

/-- Each of the four clauses, at index 1 behind a good record. -/
theorem witness_EncodeReportsTheFirstBadRecord :
    (ListsFit (programsState [rice, badName] 2) ∧ (programsState [rice, badName] 2).p[1]? = some badName ∧
      (∀ q ∈ (programsState [rice, badName] 2).p.take 1, ProgramWellFormed q) ∧ badName.name.head? = some 0xFF) ∧
    (ListsFit (programsState [rice, badTemp] 2) ∧ (programsState [rice, badTemp] 2).p[1]? = some badTemp ∧
      (∀ q ∈ (programsState [rice, badTemp] 2).p.take 1, ProgramWellFormed q) ∧
      badTemp.name.head? ≠ some 0xFF ∧ badTemp.temperature.toNat > 482) ∧
    (ListsFit { listState with a := [done, badAlarmName], na := 2 } ∧ (∀ q ∈ listState.p, ProgramWellFormed q) ∧
      (∀ q ∈ [done, badAlarmName].take 1, AlarmWellFormed q) ∧ badAlarmName.name.head? = some 0xFF) ∧
    (ListsFit { listState with a := [done, badAlarmTemp], na := 2 } ∧ (∀ q ∈ listState.p, ProgramWellFormed q) ∧
      (∀ q ∈ [done, badAlarmTemp].take 1, AlarmWellFormed q) ∧
      badAlarmTemp.name.head? ≠ some 0xFF ∧ badAlarmTemp.temperature.toNat > 482) := by
  have p : ∀ q ∈ [rice], ProgramWellFormed q := List.forall_mem_singleton.mpr rice_wellFormed
  have a : ∀ q ∈ [done], AlarmWellFormed q := List.forall_mem_singleton.mpr done_wellFormed
  refine ⟨⟨?_, by decide, p, by decide⟩, ⟨?_, by decide, p, by decide, by decide⟩, ⟨?_, p, a, by decide⟩,
    ⟨?_, p, a, by decide, by decide⟩⟩ <;> unfold ListsFit <;> decide

/-- A NameError for a program and one for an alarm. -/
theorem witness_NameErrorNamesABadName :
    (∃ t, exec .encode (programsState [rice, badName] 2) = .next t ∧ statusErr t.status = 3) ∧
    ∃ t, exec .encode { listState with a := [done, badAlarmName], na := 2 } = .next t ∧ statusErr t.status = 3 :=
  ⟨⟨_, encode_fails (e := .nameError) (info := 0x01) (by decide), by decide⟩,
    ⟨_, encode_fails (e := .nameError) (info := 0x81) (by decide), by decide⟩⟩

/-- A DomainError for a program and one for an alarm. -/
theorem witness_DomainErrorNamesABadTemperature :
    (∃ t, exec .encode (programsState [rice, badTemp] 2) = .next t ∧ statusErr t.status = 4) ∧
    ∃ t, exec .encode { listState with a := [done, badAlarmTemp], na := 2 } = .next t ∧ statusErr t.status = 4 :=
  ⟨⟨_, encode_fails (e := .domainError) (info := 0x01) (by decide), by decide⟩,
    ⟨_, encode_fails (e := .domainError) (info := 0x81) (by decide), by decide⟩⟩

theorem witness_RecordsStandInTheirSlots : 0 < 112 ∧ 111 < 112 := by decide

theorem witness_SlotsDoNotOverlap : (6 < 7 ∧ 6 < 7 ∧ 35 < 36 ∧ 35 < 36) ∧ off 31 6 + 35 = off 31 6 + 35 := by decide

theorem witness_UnrecognisedLabelsPackAsZero : (1 ≤ 1 ∧ 1 ≤ 4) ∧ 1 ≤ 4 ∧ 4 ≤ 4 := by decide

/-- The largest recognised code of each codebook size. -/
theorem witness_OrdinalsWithoutLabelFallBack : ((2 : Byte).toNat < 3 ∧ 3 ≤ 4) ∧ (3 : Byte).toNat < 4 ∧ 4 ≤ 4 := by
  decide

/-- Each clause at its boundary: 255, 256 and 482. -/
theorem witness_TemperatureSplit :
    ((255 : BitVec 9).toNat ≤ 482 ∧ ¬ (255 : BitVec 9).toNat > 255) ∧
    ((256 : BitVec 9).toNat ≤ 482 ∧ (256 : BitVec 9).toNat > 255) ∧ (482 : BitVec 9).toNat ≤ 482 := by decide

theorem witness_TemperatureJoin : (0 : BitVec 9).toNat ≤ 482 ∧ (482 : BitVec 9).toNat ≤ 482 := by decide

theorem witness_NameFieldIsJustifiedAndPadded : 0 < 26 ∧ 25 < 26 := by decide

theorem witness_NameEndsAtTheFirstZero : 26 ≤ riceEntry.length := by decide

/-- Each range of the program entry has its first and last byte. -/
theorem witness_ProgramEntryLayout : 0 < 26 ∧ 25 < 26 ∧ (26 ≤ 26 ∧ 26 < 30) ∧ 26 ≤ 29 ∧ 29 < 30 := by decide

/-- Each range of the alarm entry has its first and last byte. -/
theorem witness_AlarmEntryLayout : 0 < 20 ∧ 19 < 20 ∧ (20 ≤ 20 ∧ 29 < 30) ∧ 32 ≤ 32 ∧ 34 < 35 := by decide

/-- An entry of each kind of name, and a record that comes out. -/
theorem witness_ProgramEntryUnpacks :
    trim ws (nameget (List.replicate 36 0x20) 26) = [] ∧ trim ws (nameget riceEntry 26) ≠ [] ∧
    unpkp ws riceEntry = some rice ∧ rice.name.head? = some 0x52 := by decide

theorem witness_AlarmEntryUnpacks :
    trim ws (nameget (List.replicate 36 0x00) 20) = [] ∧ trim ws (nameget (packa done) 20) ≠ [] ∧
    unpka ws (packa done) = some done ∧ done.name.head? = some 0x44 := by decide

theorem rice_survives : ProgramSurvives rice := by
  refine ⟨⟨by decide, by decide, by decide, ?_, ?_⟩, by decide, by decide, by decide, by decide⟩
  · rintro _ ⟨⟩; decide
  · rintro _ ⟨⟩; decide

theorem done_survives : AlarmSurvives done := by
  refine ⟨⟨by decide, by decide, by decide, ?_, ?_⟩, by decide⟩
  · rintro _ ⟨⟩; decide
  · rintro _ ⟨⟩; decide

theorem witness_ProgramRecordSurvivesRoundTrip : ProgramSurvives rice := rice_survives

theorem witness_AlarmRecordSurvivesRoundTrip : AlarmSurvives done := done_survives

/-- A name of spaces is lost, an ordinary one is not; both at the edge of the domain. -/
theorem witness_ProgramRoundTripGeneralLaw :
    (482 : BitVec 9).toNat ≤ 482 ∧
    trim ws (nameget (packp { rice with name := [0x20, 0x20], temperature := 482 }) 26) = [] ∧
    trim ws (nameget (packp { rice with temperature := 482 }) 26) ≠ [] := by decide

theorem witness_ChecksumIsTheAdditiveSum :
    35 ≤ riceEntry.length ∧ ((0x01 : Byte) :: List.replicate 34 0x00).Perm (List.replicate 34 0x00 ++ [0x01]) := by
  decide

/-- The first and the last byte that takes part. -/
theorem witness_OneChangedByteChangesTheChecksum :
    (0 < 35 ∧ 0 < riceEntry.length ∧ riceEntry[0]? ≠ some 0x53) ∧
    (34 < 35 ∧ 34 < riceEntry.length ∧ riceEntry[34]? ≠ some 0x01) := by decide

theorem witness_CsgenStoresTheChecksum : (0 : BitVec 3) ≠ 7 ∧ (6 : BitVec 3) ≠ 7 ∧ (7 : BitVec 3) = 7 := by decide

theorem witness_CsvfyComparesTheChecksum : (0 : BitVec 3) ≠ 7 ∧ (6 : BitVec 3) ≠ 7 ∧ (7 : BitVec 3) = 7 := by decide

theorem witness_CsgenRepairsTheSlot : (6 : BitVec 3) ≠ 7 := by decide

/-- The "Rice" entry in slot (0,0) verifies; its last summed byte is patched. -/
theorem witness_PatchedSlotFailsVerification :
    (0 : BitVec 3) ≠ 7 ∧ 34 < 35 ∧ (34 : BitVec 13).toNat = 256 * (0 : BitVec 5).toNat + 36 * (0 : BitVec 3).toNat + 34 ∧
    (slotState riceEntry 0).imgByte (256 * (0 : BitVec 5).toNat + 36 * (0 : BitVec 3).toNat + 35) =
      imageSum (slotState riceEntry 0) (256 * (0 : BitVec 5).toNat + 36 * (0 : BitVec 3).toNat) ∧
    (0x01 : Byte) ≠ (slotState riceEntry 0).imgByte (34 : BitVec 13).toNat := by decide +kernel

/-- Lists that fit, and a slot, a filler byte and an address of each clause at its boundary. -/
theorem witness_EncodeWritesTheImage :
    EncodeAccepts listState ∧ (15 < 16 ∧ 6 < 7 ∧ 35 < 36) ∧ (16 ≤ 16 ∧ 31 < 32) ∧ 252 ≤ 252 ∧ 255 < 256 ∧ 8192 ≤ 8192 :=
  ⟨listState_accepts, by decide, by decide, by decide, by decide, by decide⟩

theorem witness_EncodedImageDependsOnListsOnly :
    EncodeAccepts listState ∧ { listState with csval := 1, ilen := 5 }.p = listState.p ∧
    { listState with csval := 1, ilen := 5 }.np = listState.np ∧ { listState with csval := 1, ilen := 5 }.a = listState.a ∧
    { listState with csval := 1, ilen := 5 }.na = listState.na ∧
    exec .encode listState = .next (encodedState listState) ∧ 8191 < 8192 :=
  ⟨listState_accepts, rfl, rfl, rfl, rfl, listState_encodes, by decide⟩

theorem witness_SentinelMarksExactlyTheEmptySlots :
    EncodeAccepts listState ∧ exec .encode listState = .next (encodedState listState) ∧
    (0 < 16 ∧ 0 < 7 ∧ ¬ listState.np.toNat ≤ 7 * 0 + 0) ∧ 0 < 16 ∧ 1 < 7 ∧ listState.np.toNat ≤ 7 * 0 + 1 :=
  ⟨listState_accepts, listState_encodes, by decide, by decide⟩

theorem witness_EncodedSlotsVerify :
    EncodeAccepts listState ∧ exec .encode listState = .next (encodedState listState) ∧
    (1 : BitVec 3) ≠ 7 ∧ (15 : BitVec 5).toNat < 16 ∧ ¬ (16 : BitVec 5).toNat < 16 :=
  ⟨listState_accepts, listState_encodes, by decide⟩

/-- ILEN on both sides of the test. -/
theorem witness_DecodeUnpacksEverySlotInOrder :
    { State.reset with ilen := 8191 }.ilen.toNat < 8192 ∧ 8192 ≤ { State.reset with ilen := 8192 }.ilen.toNat := by
  decide

/-- Memories that differ at byte 35 of slot (0,0) only. -/
theorem witness_DecodeIgnoresTheChecksumByte :
    ∀ y, (∀ b sl, b < 32 → sl < 7 → y ≠ 256 * b + 36 * sl + 35) →
      State.imgByte { State.reset with img := writeSeq [] 35 [0x77] } y = State.reset.imgByte y := by
  intro y hy
  have h := hy 0 0 (by decide) (by decide)
  exact (readByte_writeSeq 0 [] 35 y [0x77]).trans (if_neg (by simp; omega))

/-- Memories that differ at byte 26 of slot (0,0) only. -/
theorem witness_DecodeIgnoresUnusedAndFillerBytes :
    (∀ b sl k, b < 16 → sl < 7 → (k < 26 ∨ 30 ≤ k ∧ k < 35) →
      State.imgByte { State.reset with img := writeSeq [] 26 [0x77] } (256 * b + 36 * sl + k) =
        State.reset.imgByte (256 * b + 36 * sl + k)) ∧
    ∀ b sl k, 16 ≤ b → b < 32 → sl < 7 → (k < 20 ∨ 30 ≤ k ∧ k < 32) →
      State.imgByte { State.reset with img := writeSeq [] 26 [0x77] } (256 * b + 36 * sl + k) =
        State.reset.imgByte (256 * b + 36 * sl + k) := by
  constructor
  · intro b sl k _ _ hk
    refine (readByte_writeSeq 0 [] 26 _ [0x77]).trans (if_neg ?_)
    rintro ⟨h1, h2⟩
    rw [List.length_singleton] at h2
    obtain rfl : b = 0 := by omega
    obtain rfl : sl = 0 := by omega
    omega
  · intro b sl k _ _ _ hk
    exact (readByte_writeSeq 0 [] 26 _ [0x77]).trans (if_neg (by simp; omega))

/-- A whole image; and memories that differ in the last filler only. -/
theorem witness_DecodeIsTotalWithinBounds :
    { State.reset with ilen := 8192 }.ilen.toNat = 8192 ∧
    ∀ y, y < 8188 → State.imgByte { State.reset with ilen := 8192, img := writeSeq [] 8188 [0x77] } y =
      State.imgByte { State.reset with ilen := 8192 } y :=
  ⟨by decide, fun y _ => (readByte_writeSeq 0 [] 8188 y [0x77]).trans (if_neg (by simp; omega))⟩

theorem witness_EncodeThenDecodeGivesTheListsBack :
    ListsFit listState ∧ (∀ r ∈ listState.p, ProgramSurvives r) ∧ ∀ r ∈ listState.a, AlarmSurvives r :=
  ⟨listState_fit, List.forall_mem_singleton.mpr rice_survives, List.forall_mem_singleton.mpr done_survives⟩

/-- A DECODE that succeeds and one that does not. -/
theorem witness_DecodeTwiceGivesTheSameLists :
    (∃ t, exec .decode { State.reset with ilen := 8192 } = .next t) ∧ ∃ t, exec .decode State.reset = .next t :=
  ⟨⟨_, execDecode_whole (by decide)⟩, ⟨_, rfl⟩⟩

/-- A list of the greatest length, one longer, and a name one byte too long. -/
theorem witness_SetpReplacesTheProgramList :
    ((List.replicate 255 rice).length ≤ 255 ∧ ∀ r ∈ List.replicate 255 rice, r.name.length ≤ Config.nameInMax) ∧
    255 < (List.replicate 256 rice).length ∧
    ∃ r ∈ [{ rice with name := List.replicate (Config.nameInMax + 1) 0x41 }], Config.nameInMax < r.name.length := by
  refine ⟨⟨List.length_replicate.le, fun r hr => ?_⟩, by rw [List.length_replicate]; decide, _,
    List.mem_singleton.mpr rfl, by rw [List.length_replicate]; exact Nat.lt_succ_self _⟩
  rw [(List.mem_replicate.mp hr).2]
  exact Nat.le_add_right_of_le (by decide)

theorem witness_SetaReplacesTheAlarmList :
    ((List.replicate 255 done).length ≤ 255 ∧ ∀ r ∈ List.replicate 255 done, r.name.length ≤ Config.nameInMax) ∧
    255 < (List.replicate 256 done).length ∧
    ∃ r ∈ [{ done with name := List.replicate (Config.nameInMax + 1) 0x41 }], Config.nameInMax < r.name.length := by
  refine ⟨⟨List.length_replicate.le, fun r hr => ?_⟩, by rw [List.length_replicate]; decide, _,
    List.mem_singleton.mpr rfl, by rw [List.length_replicate]; exact Nat.lt_succ_self _⟩
  rw [(List.mem_replicate.mp hr).2]
  exact Nat.le_add_right_of_le (by decide)

/-- The last index below the count, and the first above it. -/
theorem witness_RecordReadsReturnOrAreRefused :
    listState.p.length = min listState.np.toNat 112 ∧ listState.a.length = min listState.na.toNat 112 ∧
    0 < min listState.np.toNat 112 ∧ min listState.np.toNat 112 ≤ 1 ∧
    0 < min listState.na.toNat 112 ∧ min listState.na.toNat 112 ≤ 1 := by decide

/-- A short image and one byte too many. -/
theorem witness_LoadimgKeepsTheFirst8192Bytes :
    (0 < min [(0x01 : Byte)].length 8192 ∧ min [(0x01 : Byte)].length 8192 ≤ 1) ∧
    8191 < min (List.replicate 8193 (0x01 : Byte)).length 8192 ∧
    min (List.replicate 8193 (0x01 : Byte)).length 8192 ≤ 8192 := by
  rw [List.length_replicate]; decide

theorem witness_ImageByteAccess : 8190 ≠ (8191 : BitVec 13).toNat := by decide

theorem witness_ResetFromAnyState :
    { goodState with inbox := [.reset, .cmd 0x0100] }.inbox = .reset :: [.cmd 0x0100] := rfl

end Sys2Proof.Tests
end

section
/-! PROOFS. The invariant, the flags, and what no transaction but a reset undoes (10_state). -/

namespace Sys2Proof.Machine

/-! ### Commands: from the cause to the outcome -/

/-- A command with a cause for an error ends in the error entry for it (60_exceptions R238). -/
theorem exec_of_errorCause {i : Instr} {s : State} {e : BlockError} {info : Byte} (h : ErrorCause i s e info) :
    exec i s = .next (raise e info s) := by
  cases i with
  | encode => exact execEncode_of_some h
  | decode => obtain ⟨hl, rfl, rfl⟩ := h; exact execDecode_short hl
  | csgen b sl => obtain ⟨rfl, rfl, rfl⟩ := h; rfl
  | csvfy b sl => obtain ⟨rfl, rfl, rfl⟩ := h; rfl

/-- A command that can succeed does. -/
theorem exec_of_success {i : Instr} {s t : State} (h : Success i s t) : exec i s = .next t := by
  cases i with
  | encode => obtain ⟨hn, rfl⟩ := h; exact execEncode_of_none hn
  | decode => obtain ⟨hl, rfl⟩ := h; exact execDecode_whole hl
  | csgen b sl => obtain ⟨hs, rfl⟩ := h; exact execCsgen_legal hs b s
  | csvfy b sl => obtain ⟨hs, rfl⟩ := h; exact execCsvfy_legal hs b s

/-- An error entry never reports success (60_exceptions R230). -/
theorem statusErr_raise_ne_zero (e : BlockError) (info : Byte) (s : State) :
    statusErr (raise e info s).status ≠ 0 := by
  simpa using e.code_ne_zero

/-- CSVFY sets CSOK to whether the stored byte equals the sum (42_checksum R213). -/
theorem statusCsok_verifiedState (x : Nat) (s : State) :
    statusCsok (verifiedState x s).status = true ↔ s.imgByte (x + 35) = imageSum s x := by
  simp [verifiedState]

/-! ### SERR and the inbox -/

/-- SERR is "never cleared by a command" (10_state R31). -/
theorem statusSerr_of_exec {i : Instr} {s t : State} (h : exec i s = .next t) (hs : statusSerr s.status = true) :
    statusSerr t.status = true := by
  rcases exec_cases h with ⟨e, info, -, rfl⟩ | hsucc
  · exact (raise_errorEntry e info s).2.2.1
  · obtain ⟨-, -, hserr, -⟩ := hsucc.flags
    rw [hserr, hs]

/-- No transaction but a reset clears SERR (10_state R31). -/
theorem Performed.statusSerr {tr : Transaction} {s u : State} (h : Performed tr s u) (hr : tr ≠ .reset)
    (hs : statusSerr s.status = true) : statusSerr u.status = true := by
  cases tr with
  | setp l => obtain ⟨-, -, rfl⟩ := h; exact hs
  | seta l => obtain ⟨-, -, rfl⟩ := h; exact hs
  | getp i => obtain ⟨r, -, rfl⟩ := h; exact hs
  | geta i => obtain ⟨r, -, rfl⟩ := h; exact hs
  | rdcsr r => cases h; exact hs
  | loadimg bs => cases h; exact hs
  | rdimg x => cases h; exact hs
  | wrimg x v => cases h; exact hs
  | cmd w =>
    rcases h with ⟨i, -, hexec⟩ | ⟨-, rfl⟩
    · exact statusSerr_of_exec hexec hs
    · exact (raise_errorEntry _ _ s).2.2.1
  | reset => exact absurd rfl hr

/-- No command touches what the host has still to do. -/
theorem inbox_of_exec {i : Instr} {s t : State} (h : exec i s = .next t) : t.inbox = s.inbox := by
  rcases exec_cases h with ⟨e, info, -, rfl⟩ | hsucc
  · rfl
  · cases i with
    | encode => obtain ⟨-, rfl⟩ := hsucc; simp [encodedState]
    | decode => obtain ⟨-, rfl⟩ := hsucc; simp [decodedState]
    | csgen b sl => obtain ⟨-, rfl⟩ := hsucc; simp [generatedState]
    | csvfy b sl => obtain ⟨-, rfl⟩ := hsucc; simp [verifiedState]

/-- No transaction touches what the host has still to do (log entry 2). -/
theorem Performed.inbox {tr : Transaction} {s u : State} (h : Performed tr s u) : u.inbox = s.inbox := by
  cases tr with
  | setp l => obtain ⟨-, -, rfl⟩ := h; rfl
  | seta l => obtain ⟨-, -, rfl⟩ := h; rfl
  | getp i => obtain ⟨r, -, rfl⟩ := h; rfl
  | geta i => obtain ⟨r, -, rfl⟩ := h; rfl
  | rdcsr r => cases h; rfl
  | loadimg bs => cases h; rfl
  | rdimg x => cases h; rfl
  | wrimg x v => cases h; rfl
  | cmd w =>
    rcases h with ⟨i, -, hexec⟩ | ⟨-, rfl⟩
    · exact inbox_of_exec hexec
    · rfl
  | reset => cases h; rfl

/-- A step takes at most the first transaction out of the inbox (log entry 2). -/
theorem inbox_suffix_of_step {s t : State} (h : step s = .next t) : t.inbox <:+ s.inbox := by
  rcases step_cases h with ⟨-, rfl⟩ | ⟨tr, rest, hin, hperf⟩
  · exact List.suffix_rfl
  · rw [hperf.inbox, hin]
    exact List.suffix_cons tr rest

/-- SERR stays 1 over a step that is no reset (10_state R31). -/
theorem statusSerr_of_step {s t : State} (h : step s = .next t) (hr : s.inbox.head? ≠ some .reset)
    (hs : statusSerr s.status = true) : statusSerr t.status = true := by
  rcases step_cases h with ⟨-, rfl⟩ | ⟨tr, rest, hin, hperf⟩
  · exact hs
  · refine hperf.statusSerr ?_ hs
    rintro rfl
    exact hr (by rw [hin]; rfl)

/-- An inbox without a reset does not begin with one. -/
theorem head?_ne_reset {s : State} (h : .reset ∉ s.inbox) : s.inbox.head? ≠ some .reset :=
  fun hh => h (List.mem_of_head? hh)

/-- SERR stays 1 over a run without a reset (10_state R31). -/
theorem statusSerr_of_run {n : Nat} : ∀ {s t : State}, core.run n s = .next t → .reset ∉ s.inbox →
    statusSerr s.status = true → statusSerr t.status = true := by
  induction n with
  | zero => intro s t h _ hs; cases h; exact hs
  | succ n ih =>
    intro s t h hr hs
    obtain ⟨u, hstep, hrun⟩ := run_succ_cases h
    exact ih hrun (fun hu => hr ((inbox_suffix_of_step hstep).subset hu))
      (statusSerr_of_step hstep (head?_ne_reset hr) hs)

/-! ### The invariant, piece by piece -/

/-- The invariant's part about IMG and ILEN (10_state R28, R29, 20_memory R50). -/
structure ImageInv (m : Memory) (ilen : BitVec 14) : Prop where
  wf : m.wf
  max : ilen.toNat ≤ imageSize
  allWritten : ∀ x, x < ilen.toNat → (written m x).isSome

/-- The invariant's part about one record file, by its names and its count (10_state R21 to R26). -/
structure FileInv (names : List (List Byte)) (count : BitVec 8) : Prop where
  length : names.length = min count.toNat capacity
  fit : NamesFit names

/-- The invariant's part about STATUS and ERRIDX (10_state R31, R32). -/
structure FlagsInv (status erridx : BitVec 8) : Prop where
  reserved : statusReserved status = 0
  code : (statusErr status).toNat ≤ 5
  sticky : statusErr status ≠ 0 → statusSerr status = true
  idx : statusErr status = 0 → erridx = 0

/-- The invariant is its four parts, each about its own fields. -/
theorem stateInv_iff (s : State) : StateInv s ↔
    ImageInv s.img s.ilen ∧ FileInv (s.p.map ProgramRecord.name) s.np ∧
      FileInv (s.a.map AlarmRecord.name) s.na ∧ FlagsInv s.status s.erridx := by
  constructor
  · intro h
    exact ⟨⟨h.imgWf, h.ilenMax, h.ilenWritten⟩, ⟨List.length_map _ |>.trans h.pLength, h.pNames⟩,
      ⟨List.length_map _ |>.trans h.aLength, h.aNames⟩,
      ⟨h.reservedZero, h.errCode, h.errSticky, h.errIdxZero⟩⟩
  · rintro ⟨hi, hp, ha, hf⟩
    exact ⟨hi.wf, hi.max, hi.allWritten, List.length_map _ |>.symm.trans hp.length,
      List.length_map _ |>.symm.trans ha.length, hp.fit, ha.fit, hf.reserved, hf.code, hf.sticky, hf.idx⟩

/-- A write inside IMG keeps the image's part (20_memory R76). -/
theorem ImageInv.writeSeq {m : Memory} {ilen : BitVec 14} (h : ImageInv m ilen) {x : Nat} {vs : List Byte}
    (hx : x + vs.length ≤ imageSize) : ImageInv (writeSeq m x vs) ilen :=
  ⟨Memory.wf_writeSeq h.wf hx, h.max, fun y hy => written_isSome_writeSeq m x y vs (h.allWritten y hy)⟩

/-- H-LOADIMG counts in ILEN exactly the bytes it writes (20_memory R74). -/
theorem imageInv_loadimg {s : State} (h : s.img.wf) (bs : List Byte) :
    ImageInv (writeSeq s.img 0 (bs.take imageSize)) (s.setIlen bs.length).ilen := by
  have hlen : (bs.take imageSize).length = (s.setIlen bs.length).ilen.toNat := by
    rw [List.length_take, setIlen_ilen_toNat, Nat.min_comm]
  have hmax : (s.setIlen bs.length).ilen.toNat ≤ imageSize := by
    rw [setIlen_ilen_toNat]; exact Nat.min_le_right _ _
  refine ⟨Memory.wf_writeSeq h (by omega), hmax, fun x hx => ?_⟩
  rw [written_writeSeq, if_pos (by omega), List.getElem?_eq_getElem (by omega)]
  rfl

/-- ENCODE of lists within capacity leaves a whole image (40_encoder R141). -/
theorem imageInv_encodeImage {s : State} (h : s.img.wf) (hp : s.programs.length ≤ 112)
    (ha : s.alarms.length ≤ 112) : ImageInv (encodeImage s) (s.setIlen imageSize).ilen := by
  have hlen : (s.setIlen imageSize).ilen.toNat = imageSize := by rw [setIlen_ilen_toNat]; rfl
  exact ⟨wf_encodeImage h hp ha, hlen.le, fun x hx => written_encodeImage s (hx.trans_eq hlen)⟩

/-- Replacing a record file by a list the count can hold, with names that fit (20_memory R70, R71). -/
theorem fileInv_replace {α : Type} {name : α → List Byte} {l : List α} (hlen : l.length ≤ 255)
    (hname : ∀ r ∈ l, (name r).length ≤ Config.nameInMax) :
    FileInv ((l.take capacity).map name) (BitVec.ofNat 8 l.length) := by
  constructor
  · rw [List.length_map, List.length_take, BitVec.toNat_ofNat, Nat.mod_eq_of_lt (by omega), Nat.min_comm]
  · intro n hn
    obtain ⟨r, hr, rfl⟩ := List.mem_map.mp hn
    exact hname r (List.mem_of_mem_take hr)

/-- An empty record file with count 0 (10_state R38). -/
theorem fileInv_nil : FileInv [] 0 := ⟨rfl, fun _ hn => absurd hn List.not_mem_nil⟩

/-- A record file never lists more than 112 registers (10_state R26). -/
theorem FileInv.length_le {names : List (List Byte)} {count : BitVec 8} (h : FileInv names count) :
    names.length ≤ 112 := h.length ▸ Nat.min_le_right _ _

/-- STATUS and ERRIDX of the reset state (10_state R38). -/
theorem flagsInv_zero : FlagsInv 0x00 0x00 := ⟨by decide, by decide, by decide, by decide⟩

/-- The error entry keeps the flags' part (60_exceptions R238). -/
theorem FlagsInv.raise {s : State} (h : FlagsInv s.status s.erridx) (e : BlockError) (info : Byte) :
    FlagsInv (raise e info s).status (raise e info s).erridx := by
  obtain ⟨-, hcode, hserr, -, hres⟩ := raise_errorEntry e info s
  exact ⟨hres.trans h.reserved, hcode ▸ e.code_le_five, fun _ => hserr,
    fun h0 => absurd h0 (statusErr_raise_ne_zero e info s)⟩

/-- The end of a successful command keeps the flags' part (10_state R35). -/
theorem FlagsInv.succeed {s t : State} (h : FlagsInv s.status s.erridx) (hs : SuccessFlags s t) :
    FlagsInv t.status t.erridx := by
  obtain ⟨herr, hidx, -, hres⟩ := hs
  exact ⟨hres.trans h.reserved, by rw [herr]; decide, fun hne => absurd herr hne, fun _ => hidx⟩

/-! ### Names DECODE reads from the image -/

/-- A name from a field of a width the registers hold fits them (10_state R21, 41_decoder R171, R172). -/
theorem length_trim_nameget_le (white e : List Byte) {w : Nat} (hw : w ≤ 26) :
    (trim white (nameget e w)).length ≤ Config.nameInMax :=
  calc (trim white (nameget e w)).length
      ≤ (nameget e w).length := (trim_sublist _ _).length_le
    _ ≤ w := length_nameget_le e w
    _ ≤ Config.nameInMax := Nat.le_add_right_of_le hw

theorem name_fits_of_unpkp {white e : List Byte} {r : ProgramRecord} (h : unpkp white e = some r) :
    r.name.length ≤ Config.nameInMax := by
  simp only [unpkp, Option.ite_none_left_eq_some, Option.some.injEq] at h
  obtain ⟨-, rfl⟩ := h
  exact length_trim_nameget_le white e (by decide)

theorem name_fits_of_unpka {white e : List Byte} {r : AlarmRecord} (h : unpka white e = some r) :
    r.name.length ≤ Config.nameInMax := by
  simp only [unpka, Option.ite_none_left_eq_some, Option.some.injEq] at h
  obtain ⟨-, rfl⟩ := h
  exact length_trim_nameget_le white e (by decide)

/-- A slot that decodes to a record was unpacked to it (41_decoder R180). -/
theorem unpack_of_slotRecord {α : Type} {unpack : List Byte → Option α} {e : List Byte} {r : α}
    (h : slotRecord unpack e = some r) : unpack e = some r := by
  rw [slotRecord, Option.ite_none_left_eq_some] at h
  exact h.2

theorem name_fits_of_mem_decodedPrograms {s : State} {r : ProgramRecord} (h : r ∈ decodedPrograms s) :
    r.name.length ≤ Config.nameInMax := by
  rw [decodedPrograms_eq] at h
  obtain ⟨b, -, hb⟩ := List.mem_flatMap.mp h
  obtain ⟨sl, -, hr⟩ := List.mem_filterMap.mp hb
  exact name_fits_of_unpkp (unpack_of_slotRecord hr)

theorem name_fits_of_mem_decodedAlarms {s : State} {r : AlarmRecord} (h : r ∈ decodedAlarms s) :
    r.name.length ≤ Config.nameInMax := by
  rw [decodedAlarms_eq] at h
  obtain ⟨b, -, hb⟩ := List.mem_flatMap.mp h
  obtain ⟨sl, -, hr⟩ := List.mem_filterMap.mp hb
  exact name_fits_of_unpka (unpack_of_slotRecord hr)

/-! ### Commands and transactions keep the invariant -/

/-- The error entry keeps the invariant (60_exceptions R238). -/
theorem stateInv_raise {s : State} (h : StateInv s) (e : BlockError) (info : Byte) : StateInv (raise e info s) := by
  obtain ⟨himg, hp, ha, hflags⟩ := (stateInv_iff s).mp h
  exact (stateInv_iff _).mpr ⟨himg, hp, ha, hflags.raise e info⟩

/-- A command that succeeds keeps the invariant. -/
theorem Success.stateInv {i : Instr} {s t : State} (hsucc : Success i s t) (h : StateInv s) : StateInv t := by
  obtain ⟨himg, hp, ha, hflags⟩ := (stateInv_iff s).mp h
  have hflags' := hflags.succeed hsucc.flags
  rw [stateInv_iff]
  cases i with
  | encode =>
    obtain ⟨-, rfl⟩ := hsucc
    have hpl : s.programs.length ≤ 112 :=
      (List.length_take_le' _ _).trans (by simpa only [List.length_map] using hp.length_le)
    have hal : s.alarms.length ≤ 112 :=
      (List.length_take_le' _ _).trans (by simpa only [List.length_map] using ha.length_le)
    exact ⟨imageInv_encodeImage himg.wf hpl hal, hp, ha, hflags'⟩
  | decode =>
    obtain ⟨-, rfl⟩ := hsucc
    have hpl := length_decodedPrograms_le s
    have hal := length_decodedAlarms_le s
    exact ⟨himg, fileInv_replace (by omega) fun _ => name_fits_of_mem_decodedPrograms,
      fileInv_replace (by omega) fun _ => name_fits_of_mem_decodedAlarms, hflags'⟩
  | csgen b sl =>
    obtain ⟨hsl, rfl⟩ := hsucc
    have hx : eaAddr b sl + 35 + 1 ≤ imageSize := by
      have := eaAddr_bound (b := b) hsl
      simp only [imageSize]; omega
    exact ⟨himg.writeSeq hx, hp, ha, hflags'⟩
  | csvfy b sl =>
    obtain ⟨-, rfl⟩ := hsucc
    -- CSVFY writes only flags; `simp` reads the frame off field by field, where unification would evaluate the sum
    exact ⟨by simpa [verifiedState] using himg, by simpa [verifiedState] using hp,
      by simpa [verifiedState] using ha, hflags'⟩

/-- Every command keeps the invariant. -/
theorem stateInv_of_exec {i : Instr} {s t : State} (h : StateInv s) (hexec : exec i s = .next t) : StateInv t := by
  rcases exec_cases hexec with ⟨e, info, -, rfl⟩ | hsucc
  · exact stateInv_raise h e info
  · exact hsucc.stateInv h

/-- The values reset gives are good, whatever stands in the model's own fields (70_reset R260). -/
theorem stateInv_reset (resets : Nat) (inbox : List Transaction) :
    StateInv { State.reset with resets := resets, inbox := inbox } := by
  rw [stateInv_iff]
  refine ⟨⟨Memory.wf_nil, Nat.zero_le _, fun x hx => absurd hx (Nat.not_lt_zero x)⟩, fileInv_nil, fileInv_nil,
    flagsInv_zero⟩

/-- Every transaction keeps the invariant. -/
theorem Performed.stateInv {tr : Transaction} {s u : State} (hperf : Performed tr s u) (h : StateInv s) :
    StateInv u := by
  obtain ⟨himg, hp, ha, hflags⟩ := (stateInv_iff s).mp h
  cases tr with
  | setp l =>
    obtain ⟨hlen, hnames, rfl⟩ := hperf
    exact (stateInv_iff _).mpr ⟨himg, fileInv_replace hlen hnames, ha, hflags⟩
  | seta l =>
    obtain ⟨hlen, hnames, rfl⟩ := hperf
    exact (stateInv_iff _).mpr ⟨himg, hp, fileInv_replace hlen hnames, hflags⟩
  | getp i => obtain ⟨r, -, rfl⟩ := hperf; exact (stateInv_iff _).mpr ⟨himg, hp, ha, hflags⟩
  | geta i => obtain ⟨r, -, rfl⟩ := hperf; exact (stateInv_iff _).mpr ⟨himg, hp, ha, hflags⟩
  | rdcsr r => cases hperf; exact (stateInv_iff _).mpr ⟨himg, hp, ha, hflags⟩
  | loadimg bs => cases hperf; exact (stateInv_iff _).mpr ⟨imageInv_loadimg himg.wf bs, hp, ha, hflags⟩
  | rdimg x => cases hperf; exact (stateInv_iff _).mpr ⟨himg, hp, ha, hflags⟩
  | wrimg x v => cases hperf; exact (stateInv_iff _).mpr ⟨himg.writeSeq x.isLt, hp, ha, hflags⟩
  | cmd w =>
    rcases hperf with ⟨i, -, hexec⟩ | ⟨-, rfl⟩
    · exact stateInv_of_exec h hexec
    · exact stateInv_raise h _ _
  | reset => cases hperf; exact stateInv_reset _ _

/-- Taking a transaction out of the inbox touches none of the invariant's fields. -/
theorem stateInv_accept {s : State} (h : StateInv s) (rest : List Transaction) : StateInv (s.accept rest) :=
  (stateInv_iff _).mpr ((stateInv_iff s).mp h)

/-- Every step keeps the invariant. -/
theorem stateInv_of_step {s t : State} (h : StateInv s) (hstep : step s = .next t) : StateInv t := by
  rcases step_cases hstep with ⟨-, rfl⟩ | ⟨tr, rest, -, hperf⟩
  · exact h
  · exact hperf.stateInv (stateInv_accept h rest)

/-! ### States that differ only in the flags -/

/-- `s` with other values in STATUS, ERRIDX and CSVAL. -/
def State.withFlags (s : State) (status erridx csval : BitVec 8) : State :=
  { s with status := status, erridx := erridx, csval := csval }

@[simp] theorem State.withFlags_imgByte (s : State) (st ei cv : BitVec 8) (x : Nat) :
    (s.withFlags st ei cv).imgByte x = s.imgByte x := rfl

@[simp] theorem imageSum_withFlags (s : State) (st ei cv : BitVec 8) (x : Nat) :
    imageSum (s.withFlags st ei cv) x = imageSum s x := rfl

/-- No cause of an error lies in a flag (10_state R35). -/
theorem errorCause_withFlags (i : Instr) (s : State) (st ei cv : BitVec 8) (e : BlockError) (info : Byte) :
    ErrorCause i (s.withFlags st ei cv) e info ↔ ErrorCause i s e info := by
  cases i <;> rfl

/-- `t` and `t'` differ at most in STATUS and CSVAL, with ERR the same; CSVAL and CSOK are the same where the command
writes them (10_state R35). -/
def SameButFlags (i : Instr) (t t' : State) : Prop :=
  t' = { t with status := t'.status, csval := t'.csval } ∧ statusErr t'.status = statusErr t.status ∧
  ∀ (b : BitVec 5) (sl : BitVec 3), sl ≠ 7 →
    (i = .csgen b sl ∨ i = .csvfy b sl → t'.csval = t.csval) ∧
    (i = .csvfy b sl → statusCsok t'.status = statusCsok t.status)

/-- The two error entries differ only in the flags: an erring CSGEN or CSVFY names slot 7. -/
theorem sameButFlags_raise {i : Instr} {s : State} {e : BlockError} {info : Byte} (h : ErrorCause i s e info)
    (st ei cv : BitVec 8) : SameButFlags i (raise e info s) (raise e info (s.withFlags st ei cv)) := by
  refine ⟨rfl, by simp, fun b sl hsl => ⟨?_, ?_⟩⟩
  · rintro (rfl | rfl) <;> exact absurd h.1 hsl
  · rintro rfl
    exact absurd h.1 hsl

/-- A command that succeeds does so whatever the flags are, with the same effect (10_state R35). -/
theorem Success.withFlags {i : Instr} {s t : State} (h : Success i s t) (st ei cv : BitVec 8) :
    ∃ t', Success i (s.withFlags st ei cv) t' ∧ SameButFlags i t t' := by
  cases i with
  | encode =>
    obtain ⟨hn, rfl⟩ := h
    exact ⟨_, ⟨hn, rfl⟩, rfl, by simp [encodedState], by simp⟩
  | decode =>
    obtain ⟨hl, rfl⟩ := h
    exact ⟨_, ⟨hl, rfl⟩, rfl, by simp [decodedState], by simp⟩
  | csgen b sl =>
    obtain ⟨hsl, rfl⟩ := h
    exact ⟨_, ⟨hsl, rfl⟩, rfl, by simp [generatedState], fun _ _ _ => ⟨fun _ => rfl, by simp⟩⟩
  | csvfy b sl =>
    obtain ⟨hsl, rfl⟩ := h
    exact ⟨_, ⟨hsl, rfl⟩, rfl, by simp [verifiedState],
      fun _ _ _ => ⟨fun _ => rfl, fun _ => Bool.eq_iff_iff.mpr (by simp [statusCsok_verifiedState])⟩⟩

/-! ### The obligations -/

/-- Settles O60: each of the invariant's four parts is kept by the transactions that write its fields. -/
theorem stepKeepsTheInvariant : Obligations.StepKeepsTheInvariant :=
  fun _ _ => stateInv_of_step

/-- Settles O59: nothing is written, listed or counted after reset. -/
theorem resetStateMeetsTheInvariant : Obligations.ResetStateMeetsTheInvariant :=
  stateInv_reset 0 []

/-- Settles O9: the error entry never ends with ERR 0, and a success always does. -/
theorem flagEffectsByCommand : Obligations.FlagEffectsByCommand := by
  intro i s t h
  rcases exec_cases h with ⟨e, info, -, rfl⟩ | hsucc
  · obtain ⟨-, -, hserr, hcsok, -⟩ := raise_errorEntry e info s
    exact ⟨fun h0 => absurd h0 (statusErr_raise_ne_zero e info s), fun _ => ⟨hserr, hcsok, rfl⟩⟩
  · refine ⟨fun _ => ⟨hsucc.flags, ?_⟩, fun hne => absurd hsucc.flags.1 hne⟩
    cases i with
    | encode => obtain ⟨-, rfl⟩ := hsucc; simp [encodedState]
    | decode => obtain ⟨-, rfl⟩ := hsucc; simp [decodedState]
    | csgen b sl => obtain ⟨-, rfl⟩ := hsucc; simp [generatedState, ← eaAddr_eq]
    | csvfy b sl =>
      obtain ⟨-, rfl⟩ := hsucc
      refine ⟨by simp, by simp, ?_⟩
      rintro _ _ ⟨⟩
      exact ⟨rfl, statusCsok_verifiedState _ s⟩

/-- Settles O10: neither the causes of errors nor the effects of commands depend on the flags. -/
theorem noCommandReadsAFlag : Obligations.NoCommandReadsAFlag := by
  intro i s st ei cv
  rcases exec_outcome i s with ⟨e, info, hcause, hexec⟩ | ⟨t, hsucc, hexec⟩
  · exact ⟨_, _, hexec, exec_of_errorCause ((errorCause_withFlags i s st ei cv e info).mpr hcause),
      sameButFlags_raise hcause st ei cv⟩
  · obtain ⟨t', hsucc', hsame⟩ := hsucc.withFlags st ei cv
    exact ⟨t, t', hexec, exec_of_success hsucc', hsame⟩

/-- Settles O11: every transaction but a reset leaves SERR or sets it. -/
theorem onlyResetClearsSerr : Obligations.OnlyResetClearsSerr :=
  fun _ _ => statusSerr_of_step

/-- Settles O12, by induction on the number of steps: a step with ERR not 0 has SERR 1 by the invariant, and SERR
would still be 1 at the end. -/
theorem serrZeroMeansNoCommandFailed : Obligations.SerrZeroMeansNoCommandFailed := by
  intro n k
  induction k generalizing n with
  | zero =>
    intro s t hinv hr _ hrun hclean
    refine ⟨s, run_zero s, by_contra fun hne => ?_⟩
    have hserr := statusSerr_of_run hrun hr (hinv.errSticky hne)
    exact absurd hclean (by rw [NoCommandFailed, hserr]; decide)
  | succ k ih =>
    intro s t hinv hr hk hrun hclean
    obtain ⟨n, rfl⟩ : ∃ m, n = m + 1 := Nat.exists_eq_add_one.mpr (by omega)
    obtain ⟨u, hstep, hrun'⟩ := run_succ_cases hrun
    rw [run_succ k hstep]
    exact ih n u t (stateInv_of_step hinv hstep) (fun hu => hr ((inbox_suffix_of_step hstep).subset hu)) (by omega)
      hrun' hclean

end Sys2Proof.Machine
end

section
/-! PROOFS. Entry addresses, the bytes DECODE looks at, and the host's transactions (20_memory). -/

namespace Sys2Proof.Machine

/-! ### Entry addresses -/

/-- The address of a byte of an entry settles the block (20_memory R54). -/
theorem off_add_div (b : Nat) {sl k : Nat} (hsl : sl < 7) (hk : k < 36) : (off b sl + k) / 256 = b := by
  rw [off_eq, Nat.add_assoc, Nat.mul_add_div (by decide), Nat.div_eq_of_lt (by omega), Nat.add_zero]

/-- The place of a byte of an entry in its block (20_memory R54). -/
theorem off_add_mod (b : Nat) {sl k : Nat} (hsl : sl < 7) (hk : k < 36) : (off b sl + k) % 256 = 36 * sl + k := by
  rw [off_eq, Nat.add_assoc, Nat.mul_add_mod, Nat.mod_eq_of_lt (by omega)]

/-- The first and the last byte of an entry stand in one block (20_memory R54). -/
theorem off_div_eq_last_div (b : Nat) {sl : Nat} (hsl : sl < 7) : off b sl / 256 = (off b sl + 35) / 256 := by
  rw [off_add_div b hsl (by decide)]
  exact off_add_div b (k := 0) hsl (by decide)

/-! ### The bytes of an entry DECODE looks at -/

/-- The sentinel test looks at the first byte, which stands in every name field (20_memory R58). -/
theorem slotRecord_congr {α : Type} {unpack : List Byte → Option α} {e e' : List Byte} {w : Nat} (hw : w ≠ 0)
    (hname : e'.take w = e.take w) (hunpack : unpack e' = unpack e) : slotRecord unpack e' = slotRecord unpack e := by
  have hhead : e'.head? = e.head? := by simpa [List.head?_take, hw] using congrArg List.head? hname
  rw [slotRecord, slotRecord, hhead, hunpack]

/-- UNPKP reads the name field and bytes 30 to 34 (41_decoder R177). -/
theorem unpkp_congr (white : List Byte) {e e' : List Byte} (hname : e'.take 26 = e.take 26)
    (hfield : ∀ k, 30 ≤ k → k < 35 → entryByte e' k = entryByte e k) : unpkp white e' = unpkp white e := by
  have hget : nameget e' 26 = nameget e 26 := by rw [nameget, nameget, hname]
  simp only [unpkp, hget, hfield 30 (by decide) (by decide), hfield 31 (by decide) (by decide),
    hfield 32 (by decide) (by decide), hfield 33 (by decide) (by decide), hfield 34 (by decide) (by decide)]

/-- UNPKA reads the name field and bytes 30 and 31 (41_decoder R178). -/
theorem unpka_congr (white : List Byte) {e e' : List Byte} (hname : e'.take 20 = e.take 20)
    (hfield : ∀ k, 30 ≤ k → k < 32 → entryByte e' k = entryByte e k) : unpka white e' = unpka white e := by
  have hget : nameget e' 20 = nameget e 20 := by rw [nameget, nameget, hname]
  simp only [unpka, hget, hfield 30 (by decide) (by decide), hfield 31 (by decide) (by decide)]

theorem entryByte_slotBytes (s : State) (b sl : Nat) {k : Nat} (h : k < 36) :
    entryByte (slotBytes s b sl) k = s.imgByte (256 * b + 36 * sl + k) := by
  simp [entryByte, slotBytes, List.getD_eq_getElem?_getD, h]

/-- The first bytes of two slots agree when the bytes of IMG do. -/
theorem take_slotBytes_congr {s t : State} {b sl w : Nat} (hw : w ≤ 36)
    (h : ∀ k, k < w → t.imgByte (256 * b + 36 * sl + k) = s.imgByte (256 * b + 36 * sl + k)) :
    (slotBytes t b sl).take w = (slotBytes s b sl).take w := by
  simp only [slotBytes, ← List.map_take, List.take_range, Nat.min_eq_left hw]
  exact List.map_congr_left fun k hk => h k (List.mem_range.mp hk)

/-- The programs DECODE finds are settled by bytes 0 to 25 and 30 to 34 of their slots (20_memory R62). -/
theorem decodedPrograms_congr {s t : State}
    (h : ∀ b sl k, b < 16 → sl < 7 → (k < 26 ∨ 30 ≤ k ∧ k < 35) →
      t.imgByte (256 * b + 36 * sl + k) = s.imgByte (256 * b + 36 * sl + k)) :
    decodedPrograms t = decodedPrograms s := by
  rw [decodedPrograms_eq, decodedPrograms_eq]
  refine List.flatMap_congr fun b hb => List.filterMap_congr fun sl hsl => ?_
  have hslot := fun k => h b sl k (List.mem_range.mp hb) (List.mem_range.mp hsl)
  have hname : (slotBytes t b sl).take 26 = (slotBytes s b sl).take 26 :=
    take_slotBytes_congr (by decide) fun k hk => hslot k (.inl hk)
  refine slotRecord_congr (by decide) hname (unpkp_congr ws hname fun k hlo hhi => ?_)
  rw [entryByte_slotBytes t b sl (by omega), entryByte_slotBytes s b sl (by omega)]
  exact hslot k (.inr ⟨hlo, hhi⟩)

/-- The alarms DECODE finds are settled by bytes 0 to 19, 30 and 31 of their slots (20_memory R62). -/
theorem decodedAlarms_congr {s t : State}
    (h : ∀ b sl k, 16 ≤ b → b < 32 → sl < 7 → (k < 20 ∨ 30 ≤ k ∧ k < 32) →
      t.imgByte (256 * b + 36 * sl + k) = s.imgByte (256 * b + 36 * sl + k)) :
    decodedAlarms t = decodedAlarms s := by
  rw [decodedAlarms_eq, decodedAlarms_eq]
  refine List.flatMap_congr fun b hb => List.filterMap_congr fun sl hsl => ?_
  have hb16 := List.mem_range.mp hb
  have hslot := fun k => h (16 + b) sl k (by omega) (by omega) (List.mem_range.mp hsl)
  have hname : (slotBytes t (16 + b) sl).take 20 = (slotBytes s (16 + b) sl).take 20 :=
    take_slotBytes_congr (by decide) fun k hk => hslot k (.inl hk)
  refine slotRecord_congr (by decide) hname (unpka_congr ws hname fun k hlo hhi => ?_)
  rw [entryByte_slotBytes t _ sl (by omega), entryByte_slotBytes s _ sl (by omega)]
  exact hslot k (.inr ⟨hlo, hhi⟩)

/-- DECODE of another image with the same records in it does the same, and leaves that image (41_decoder R180). -/
theorem exec_decode_setImg {s : State} {m : Memory} (hp : decodedPrograms (s.setImg m) = decodedPrograms s)
    (ha : decodedAlarms (s.setImg m) = decodedAlarms s) :
    ∃ t, exec .decode s = .next t ∧ exec .decode (s.setImg m) = .next (t.setImg m) := by
  rcases exec_outcome .decode s with ⟨e, info, hcause, hexec⟩ | ⟨t, ⟨hlen, rfl⟩, hexec⟩
  · exact ⟨_, hexec, exec_of_errorCause (i := .decode) hcause⟩
  · have hstate : decodedState (s.setImg m) = (decodedState s).setImg m := by
      rw [decodedState, hp, ha]; rfl
    exact ⟨_, hexec, exec_of_success (i := .decode) ⟨hlen, hstate.symm⟩⟩

/-! ### Host transactions -/

/-- The tests of H-SETP and H-SETA on a list's names (20_memory R70). -/
theorem all_presentableName_iff {α : Type} (name : α → List Byte) (l : List α) :
    l.all (fun r => presentableName (name r)) = true ↔ ∀ r ∈ l, (name r).length ≤ Config.nameInMax := by
  simp [presentableName_iff]

/-- A list over 255 records, or one with a name over NAME_IN_MAX, fails the tests (20_memory R70). -/
theorem not_presentable {α : Type} {name : α → List Byte} {l : List α}
    (h : 255 < l.length ∨ ∃ r ∈ l, Config.nameInMax < (name r).length) :
    ¬ (l.length ≤ 255 ∧ l.all (fun r => presentableName (name r)) = true) := by
  rw [all_presentableName_iff]
  rintro ⟨hlen, hnames⟩
  rcases h with hlong | ⟨r, hr, hname⟩
  · omega
  · exact absurd (hnames r hr) (by omega)

/-- A transaction whose rule allows it ends in the state of its rule: the converse of `perform_cases`. -/
theorem perform_of_performed {t : Transaction} {s u : State} (h : Performed t s u) : perform t s = .next u := by
  cases t with
  | setp l =>
    obtain ⟨hlen, hnames, rfl⟩ := h
    exact if_pos ⟨hlen, (all_presentableName_iff _ l).mpr hnames⟩
  | seta l =>
    obtain ⟨hlen, hnames, rfl⟩ := h
    exact if_pos ⟨hlen, (all_presentableName_iff _ l).mpr hnames⟩
  | getp i => obtain ⟨r, hr, rfl⟩ := h; rw [perform, hostGetp, hr]
  | geta i => obtain ⟨r, hr, rfl⟩ := h; rw [perform, hostGeta, hr]
  | rdcsr r => cases h; rfl
  | loadimg bs => cases h; rfl
  | rdimg x => cases h; rfl
  | wrimg x v => cases h; rfl
  | cmd w =>
    rw [perform, hostCmd]
    rcases h with ⟨i, hi, hexec⟩ | ⟨⟨e, he⟩, rfl⟩
    · rw [hi]; exact hexec
    · rw [he]
  | reset => cases h; rfl

/-- H-GETP at an index without a register that holds a value (20_memory R72). -/
theorem perform_getp_refused {i : Nat} {s : State} (h : (s.p.take (min s.np.toNat capacity))[i]? = none) :
    perform (.getp i) s = .refused .noRecordValue := by
  rw [perform, hostGetp, h]

/-- H-GETA at an index without a register that holds a value (20_memory R72). -/
theorem perform_geta_refused {i : Nat} {s : State} (h : (s.a.take (min s.na.toNat capacity))[i]? = none) :
    perform (.geta i) s = .refused .noRecordValue := by
  rw [perform, hostGeta, h]

/-- Where the registers below min(count,112) hold a value and no others do, a record read looks at all of them
(10_state R26). -/
theorem getElem?_take_of_length {α : Type} {l : List α} {n : Nat} (h : l.length = min n 112) (i : Nat) :
    (l.take (min n capacity))[i]? = l[i]? := by
  rw [List.take_of_length_le h.le]

/-- The reply of H-RDCSR has room for a register of 8 bits (log entry 3). -/
theorem toNat_setWidth_reply (v : BitVec 8) : (v.setWidth 14).toNat = v.toNat :=
  BitVec.toNat_setWidth_of_le (by decide)

/-! ### Words written to CMD -/

theorem decodeTableWord_eq_some {nbits w : Nat} {i : Instr} :
    decodeTableWord nbits w = some i ↔ decodeWord (tableWord nbits w) = .ok i := by
  rw [decodeTableWord]
  cases decodeWord (tableWord nbits w) <;> simp

/-- A step that takes a word from the inbox runs the command it decodes to (20_memory R77, log entry 2). -/
theorem step_cmd {s : State} {w : CmdWord} {rest : List Transaction} {i : Instr} (hinbox : s.inbox = .cmd w :: rest)
    (hw : decodeWord w = .ok i) : step s = exec i (s.accept rest) := by
  rw [step, hinbox]
  simp only [perform, hostCmd, hw]

/-! ### The obligations -/

/-- Settles O19: an entry ends 252 bytes into its block at the latest, so the address settles the block and the place in
it, and the place settles slot and byte. -/
theorem slotsDoNotOverlap : Obligations.SlotsDoNotOverlap := by
  intro b sl b' sl' k k' hsl hsl' hk hk' heq
  have hblock : b = b' := by rw [← off_add_div b hsl hk, heq, off_add_div b' hsl' hk']
  have hplace : 36 * sl + k = 36 * sl' + k' := by rw [← off_add_mod b hsl hk, heq, off_add_mod b' hsl' hk']
  have hslot : sl = sl' := by omega
  exact ⟨hblock, hslot, by omega, by rw [off_add_mod b hsl hk]; omega⟩

/-- Settles O48: the records of both sections are settled by the bytes named, and DECODE looks at IMG for them only. -/
theorem decodeIgnoresUnusedAndFillerBytes : Obligations.DecodeIgnoresUnusedAndFillerBytes := by
  intro s m hp ha
  obtain ⟨t, hexec, hexec'⟩ := exec_decode_setImg (decodedPrograms_congr (t := s.setImg m) hp)
    (decodedAlarms_congr (t := s.setImg m) ha)
  exact ⟨t, _, hexec, hexec', rfl⟩

/-- Settles O52: the count is the list's length, the file its first 112 records. -/
theorem setpReplacesTheProgramList : Obligations.SetpReplacesTheProgramList := by
  intro l s
  refine ⟨fun hlen hnames => ?_, fun h => if_neg (not_presentable h)⟩
  refine ⟨_, perform_of_performed (t := .setp l) ⟨hlen, hnames, rfl⟩, rfl, setPrograms_np_toNat s hlen, ?_,
    fun i hi => ?_⟩
  · rw [State.setPrograms_p, List.length_take, Nat.min_comm]
  · rw [State.setPrograms_p, List.getElem?_take_of_lt hi]

/-- Settles O53: the count is the list's length, the file its first 112 records; a list that cannot be presented is
refused (log entry 9). -/
theorem setaReplacesTheAlarmList : Obligations.SetaReplacesTheAlarmList := by
  intro l s
  refine ⟨fun hlen hnames => ?_, fun h => if_neg (not_presentable h)⟩
  refine ⟨_, perform_of_performed (t := .seta l) ⟨hlen, hnames, rfl⟩, rfl, setAlarms_na_toNat s hlen, ?_,
    fun i hi => ?_⟩
  · rw [State.setAlarms_a, List.length_take, Nat.min_comm]
  · rw [State.setAlarms_a, List.getElem?_take_of_lt hi]

/-- Settles O54: the lists hold exactly the registers that can be read. -/
theorem recordReadsReturnOrAreRefused : Obligations.RecordReadsReturnOrAreRefused := by
  intro i s hp ha
  have hreadP := getElem?_take_of_length hp i
  have hreadA := getElem?_take_of_length ha i
  refine ⟨fun hi => ?_, fun hi => ?_, fun hi => ?_, fun hi => ?_⟩
  · have hr := List.getElem?_eq_getElem (hp ▸ hi)
    exact ⟨_, hr, perform_of_performed (t := .getp i) ⟨_, hreadP.trans hr, rfl⟩⟩
  · exact perform_getp_refused (hreadP.trans (List.getElem?_eq_none (hp ▸ hi)))
  · have hr := List.getElem?_eq_getElem (ha ▸ hi)
    exact ⟨_, hr, perform_of_performed (t := .geta i) ⟨_, hreadA.trans hr, rfl⟩⟩
  · exact perform_geta_refused (hreadA.trans (List.getElem?_eq_none (ha ▸ hi)))

/-- Settles O56: one write of the bytes kept, from address 0, and ILEN their number. -/
theorem loadimgKeepsTheFirst8192Bytes : Obligations.LoadimgKeepsTheFirst8192Bytes := by
  intro bs s
  have hlen : (bs.take imageSize).length = min bs.length 8192 := by rw [List.length_take, Nat.min_comm]
  have hbyte (k : Nat) : ((s.memWrite 0 (bs.take imageSize)).setIlen bs.length).imgByte k =
      (s.memWrite 0 (bs.take imageSize)).imgByte k := imgByte_congr rfl rfl k
  refine ⟨_, perform_of_performed (t := .loadimg bs) rfl, rfl, setIlen_ilen_toNat _ _, fun k hk => ?_,
    fun k hk => ?_⟩
  · have hself := imgByte_memWrite_self s 0 k (bs.take imageSize) (by omega)
    rw [Nat.zero_add] at hself
    rw [hbyte, hself, List.getD_eq_getElem?_getD, List.getElem?_take_of_lt (show k < 8192 by omega),
      List.getD_eq_getElem?_getD]
  · rw [hbyte, imgByte_memWrite_of_ge s _ (by omega)]

/-- Settles O57: a write of one byte, and a read that answers with the byte. -/
theorem imageByteAccess : Obligations.ImageByteAccess := by
  intro x v s
  refine ⟨⟨_, perform_of_performed (t := .wrimg x v) rfl, rfl, ?_, fun y hy => ?_⟩,
    perform_of_performed (t := .rdimg x) rfl⟩
  · exact imgByte_memWrite_self s x.toNat 0 [v] Nat.one_pos
  · rw [imgByte_memWrite, if_neg (by simp only [List.length_singleton]; omega)]

/-- Settles O6: the word is performed as it stands in the inbox, and `withFetchWord` puts it first there. -/
theorem stepRunsTheDecodedCommand : Obligations.StepRunsTheDecodedCommand :=
  ⟨fun _ _ _ _ hinbox hw => step_cmd hinbox hw, fun _ _ _ _ hw => step_cmd rfl (decodeTableWord_eq_some.mp hw)⟩

/-- Settles O18: a quotient below 16 keeps the entry in its section, a slot below 7 in its block. -/
theorem recordsStandInTheirSlots : Obligations.RecordsStandInTheirSlots := by
  intro i hi
  have hslot : i % 7 < 7 := Nat.mod_lt i (by decide)
  have hp := addrP_eq i
  have ha := addrA_eq i
  exact ⟨hp, by omega, ha, by omega, by omega, off_div_eq_last_div _ hslot, off_div_eq_last_div _ hslot⟩

/-- Settles O55: the reply is the register's value, zero-extended. -/
theorem csrReadsHaveNoSideEffect : Obligations.CsrReadsHaveNoSideEffect := by
  intro r s
  refine ⟨csrValue r s, perform_of_performed (t := .rdcsr r) rfl, ?_⟩
  cases r with
  | np => exact toNat_setWidth_reply s.np
  | na => exact toNat_setWidth_reply s.na
  | ilen => rfl
  | status => exact toNat_setWidth_reply s.status
  | erridx => exact toNat_setWidth_reply s.erridx
  | csval => exact toNat_setWidth_reply s.csval

end Sys2Proof.Machine
end

section
/-! PROOFS. The command words: which word selects which command, and which select none (30_encoding R104 to R107). -/

namespace Sys2Proof.Machine

/-! ### The command map in numbers -/

/-- The command map, row by row: opcode and operand of the word that selects a command (30_encoding R105, R106). -/
def Selects (w : CmdWord) : Instr → Prop
  | .encode => w.toNat / 256 = 1 ∧ w.toNat % 256 = 0
  | .decode => w.toNat / 256 = 2 ∧ w.toNat % 256 = 0
  | .csgen b sl => w.toNat / 256 = 3 ∧ sl ≠ 7 ∧ b.toNat = w.toNat % 256 / 8 ∧ sl.toNat = w.toNat % 8
  | .csvfy b sl => w.toNat / 256 = 4 ∧ sl ≠ 7 ∧ b.toNat = w.toNat % 256 / 8 ∧ sl.toNat = w.toNat % 8

theorem opcodeField_eq_iff (w : CmdWord) (op : Byte) : opcodeField w = op ↔ w.toNat / 256 = op.toNat := by
  rw [← BitVec.toNat_inj, opcodeField_toNat]

theorem operandField_eq_zero_iff (w : CmdWord) : operandField w = 0 ↔ w.toNat % 256 = 0 := by
  rw [← BitVec.toNat_inj, operandField_toNat]; rfl

theorem blockField_operandField_toNat (w : CmdWord) :
    (blockField (operandField w)).toNat = w.toNat % 256 / 8 := by
  rw [blockField_toNat, operandField_toNat]

theorem slotField_operandField_toNat (w : CmdWord) : (slotField (operandField w)).toNat = w.toNat % 8 := by
  rw [slotField_toNat, operandField_toNat, Nat.mod_mod_of_dvd _ (by decide)]

/-- The reserved slot as a number (30_encoding R106). -/
theorem slot_eq_seven_iff (sl : BitVec 3) : sl = 7 ↔ sl.toNat = 7 := BitVec.toNat_inj.symm

/-- The two fields of EA are those of the operand. -/
theorem eaFields_eq_iff (w : CmdWord) (b : BitVec 5) (sl : BitVec 3) :
    blockField (operandField w) = b ∧ slotField (operandField w) = sl ↔
      b.toNat = w.toNat % 256 / 8 ∧ sl.toNat = w.toNat % 8 := by
  rw [← BitVec.toNat_inj, ← BitVec.toNat_inj, blockField_operandField_toNat, slotField_operandField_toNat]
  exact and_congr eq_comm eq_comm

/-- A word that decodes is selected by the row of its command (30_encoding R105). -/
theorem selects_of_decodeWord {w : CmdWord} {i : Instr} (h : decodeWord w = .ok i) : Selects w i := by
  have hea := (eaFields_eq_iff w _ _).mp ⟨rfl, rfl⟩
  simp only [decodeWord, opcodeField_eq_iff, operandField_eq_zero_iff] at h
  split_ifs at h with hencode harg hdecode harg hcsgen hsl hcsvfy hsl <;> cases h
  · exact ⟨hencode, harg⟩
  · exact ⟨hdecode, harg⟩
  · exact ⟨hcsgen, hsl, hea⟩
  · exact ⟨hcsvfy, hsl, hea⟩

/-- A word that the row of a command selects decodes to it (30_encoding R105). -/
theorem decodeWord_of_selects {w : CmdWord} {i : Instr} (h : Selects w i) : decodeWord w = .ok i := by
  simp only [decodeWord, opcodeField_eq_iff, operandField_eq_zero_iff]
  cases i with
  | encode =>
    obtain ⟨hop, harg⟩ := h
    simp [hop, harg]
  | decode =>
    obtain ⟨hop, harg⟩ := h
    simp [hop, harg]
  | csgen b sl =>
    obtain ⟨hop, hsl, hea⟩ := h
    obtain ⟨rfl, rfl⟩ := (eaFields_eq_iff w b sl).mpr hea
    simp only [if_neg hsl]
    simp [hop]
  | csvfy b sl =>
    obtain ⟨hop, hsl, hea⟩ := h
    obtain ⟨rfl, rfl⟩ := (eaFields_eq_iff w b sl).mpr hea
    simp only [if_neg hsl]
    simp [hop]

/-- The decoder follows the command map (30_encoding R105 to R107). -/
theorem decodeWord_eq_ok_iff (w : CmdWord) (i : Instr) : decodeWord w = .ok i ↔ Selects w i :=
  ⟨selects_of_decodeWord, decodeWord_of_selects⟩

/-- Opcode `op` over the block and slot of EA make the word (30_encoding R104, R106). -/
theorem word_eq_iff (w : CmdWord) (op : Nat) (b : BitVec 5) (sl : BitVec 3) :
    256 * op + 8 * b.toNat + sl.toNat = w.toNat ↔
      w.toNat / 256 = op ∧ b.toNat = w.toNat % 256 / 8 ∧ sl.toNat = w.toNat % 8 := by
  have hslot : w.toNat % 256 % 8 = w.toNat % 8 := Nat.mod_mod_of_dvd _ (by decide)
  have := sl.isLt
  have := b.isLt
  omega

/-- The row of a command selects exactly its encoding, and only when the command is well-formed
(30_encoding R104 to R106). -/
theorem selects_iff_encodeWord_eq (w : CmdWord) (i : Instr) :
    Selects w i ↔ i.wellFormed = true ∧ encodeWord i = w := by
  rw [← BitVec.toNat_inj, encodeWord_toNat]
  cases i with
  | encode => simp only [Selects, Instr.wellFormed, true_and]; omega
  | decode => simp only [Selects, Instr.wellFormed, true_and]; omega
  | csgen b sl =>
    rw [Instr.wellFormed, decide_eq_true_eq]
    exact and_left_comm.trans (and_congr_right' (word_eq_iff w 3 b sl).symm)
  | csvfy b sl =>
    rw [Instr.wellFormed, decide_eq_true_eq]
    exact and_left_comm.trans (and_congr_right' (word_eq_iff w 4 b sl).symm)

/-- The mask 0xFFFF keeps the whole word (30_encoding R105). -/
theorem and_0xFFFF_eq_iff (w : CmdWord) (op : Nat) (h : op < 256) :
    w &&& 0xFFFF = BitVec.ofNat 16 (256 * op) ↔ w.toNat / 256 = op ∧ w.toNat % 256 = 0 := by
  rw [show (0xFFFF : CmdWord) = BitVec.allOnes 16 from rfl, BitVec.and_allOnes, ← BitVec.toNat_inj,
    BitVec.toNat_ofNat]
  omega

/-- The mask 0xFF00 keeps the opcode (30_encoding R105). -/
theorem and_0xFF00_eq_iff (w : CmdWord) (op : Nat) (h : op < 256) :
    w &&& 0xFF00 = BitVec.ofNat 16 (256 * op) ↔ w.toNat / 256 = op := by
  rw [← BitVec.toNat_inj, toNat_and_0xFF00, BitVec.toNat_ofNat]
  omega

/-- Which words select a command at all (30_encoding R107). -/
theorem exists_selects_iff (w : CmdWord) :
    (∃ i, Selects w i) ↔
      (w.toNat / 256 = 1 ∨ w.toNat / 256 = 2) ∧ w.toNat % 256 = 0 ∨
      (w.toNat / 256 = 3 ∨ w.toNat / 256 = 4) ∧ w.toNat % 8 ≠ 7 := by
  constructor
  · rintro ⟨i, h⟩
    cases i with
    | encode => exact .inl ⟨.inl h.1, h.2⟩
    | decode => exact .inl ⟨.inr h.1, h.2⟩
    | csgen b sl =>
      obtain ⟨hop, hsl, -, hslot⟩ := h
      exact .inr ⟨.inl hop, fun h7 => hsl ((slot_eq_seven_iff sl).mpr (hslot.trans h7))⟩
    | csvfy b sl =>
      obtain ⟨hop, hsl, -, hslot⟩ := h
      exact .inr ⟨.inr hop, fun h7 => hsl ((slot_eq_seven_iff sl).mpr (hslot.trans h7))⟩
  · have hblock := blockField_operandField_toNat w
    have hslot := slotField_operandField_toNat w
    have hlegal : w.toNat % 8 ≠ 7 → slotField (operandField w) ≠ 7 := fun h7 h =>
      h7 (hslot.symm.trans ((slot_eq_seven_iff _).mp h))
    rintro (⟨hop | hop, harg⟩ | ⟨hop | hop, h7⟩)
    · exact ⟨.encode, hop, harg⟩
    · exact ⟨.decode, hop, harg⟩
    · exact ⟨.csgen _ _, hop, hlegal h7, hblock, hslot⟩
    · exact ⟨.csvfy _ _, hop, hlegal h7, hblock, hslot⟩

/-- A word that selects no command ends in the error entry of IllegalCommand (60_exceptions R235). -/
theorem perform_cmd_of_decodeWord_ne_ok {w : CmdWord} (h : ∀ i, decodeWord w ≠ .ok i) (s : State) :
    perform (.cmd w) s = .next (raise .illegalCommand 0x00 s) := by
  cases hw : decodeWord w with
  | ok i => exact absurd hw (h i)
  | error e => exact perform_of_performed (t := .cmd w) (.inr ⟨⟨e, hw⟩, rfl⟩)

/-! ### The obligations -/

/-- Settles O1: the encoding of a well-formed command selects it, and the decoder follows the map. -/
theorem decodeOfEncodeIsIdentity : Obligations.DecodeOfEncodeIsIdentity := fun i hi =>
  (decodeWord_eq_ok_iff _ i).mpr ((selects_iff_encodeWord_eq _ i).mpr ⟨hi, rfl⟩)

/-- Settles O2: the same two equivalences, read the other way. -/
theorem decodedWordsAreEncodings : Obligations.DecodedWordsAreEncodings := fun w i hw =>
  (selects_iff_encodeWord_eq w i).mp ((decodeWord_eq_ok_iff w i).mp hw)

/-- Settles O3: 0xFFFF fixes opcode and operand, 0xFF00 the opcode alone. -/
theorem commandMapSelectsByMatchAndMask : Obligations.CommandMapSelectsByMatchAndMask := by
  intro w
  refine ⟨?_, ?_, fun b sl => ?_, fun b sl => ?_⟩
  · exact (decodeWord_eq_ok_iff w _).trans (and_0xFFFF_eq_iff w 1 (by decide)).symm
  · exact (decodeWord_eq_ok_iff w _).trans (and_0xFFFF_eq_iff w 2 (by decide)).symm
  · exact (decodeWord_eq_ok_iff w _).trans (and_congr_left' (and_0xFF00_eq_iff w 3 (by decide)).symm)
  · exact (decodeWord_eq_ok_iff w _).trans (and_congr_left' (and_0xFF00_eq_iff w 4 (by decide)).symm)

/-- Settles O5: the listed words are the complement of those that select a command. -/
theorem illegalWordsRaiseIllegalCommand : Obligations.IllegalWordsRaiseIllegalCommand := by
  intro w s
  refine ⟨?_, fun h => ⟨_, perform_cmd_of_decodeWord_ne_ok h s, raise_errorEntry .illegalCommand 0x00 s⟩⟩
  have hlegal := exists_selects_iff w
  simp only [ne_eq, decodeWord_eq_ok_iff, ← not_exists, hlegal]
  omega

end Sys2Proof.Machine
end

section
/-! PROOFS. The encoder: its micro-operations, the entries it packs, the error it reports and the image it writes
(40_encoder). -/

namespace Sys2Proof.Machine

/-! ### Micro-operations -/

/-- The fields of a control byte stand at their weights and do not overlap (40_encoder R134). -/
theorem ctrlpack_toNat (x : Bool) (aft pl ts : BitVec 2) :
    (ctrlpack x aft pl ts).toNat = (if x then 128 else 0) + 32 * aft.toNat + 4 * pl.toNat + ts.toNat := by
  revert x aft pl ts; decide +kernel

/-- No field of a control byte reaches bit 4 (30_encoding R96). -/
theorem ctrlpack_getLsbD_four (x : Bool) (aft pl ts : BitVec 2) : (ctrlpack x aft pl ts).getLsbD 4 = false := by
  simp [ctrlpack, flagByte]

/-- CTRLUNPACK takes the fields back out by arithmetic on the byte's value (41_decoder R175). -/
theorem ctrlunpack_ctrlpack (x : Bool) (aft pl ts : BitVec 2) :
    ctrlunpack (ctrlpack x aft pl ts) = ⟨x, aft, pl, ts⟩ := by
  obtain ⟨hx, haft, hpl, hts⟩ := ctrlunpack_toNat (ctrlpack x aft pl ts)
  rw [ctrlpack_toNat] at hx haft hpl hts
  have := aft.isLt
  have := pl.isLt
  have := ts.isLt
  rw [CtrlFields.mk.injEq]
  refine ⟨?_, BitVec.eq_of_toNat_eq ?_, BitVec.eq_of_toNat_eq ?_, BitVec.eq_of_toNat_eq ?_⟩
  · rw [hx]; cases x <;> simp <;> omega
  · rw [haft]; split <;> omega
  · rw [hpl]; split <;> omega
  · rw [hts]; split <;> omega

/-- Bit 4 lies in no field (41_decoder R175). -/
theorem ctrlunpack_xor_bit_four (c : Byte) : ctrlunpack (c ^^^ 0x10) = ctrlunpack c := by
  simp [ctrlunpack, BitVec.extractLsb'_xor]

/-- The bytes are the fields themselves, and off is the mark of three zeros (41_decoder R176). -/
theorem timerdec_eq (h m sec : Byte) : timerdec h m sec = ⟨decide (h = 0 ∧ m = 0 ∧ sec = 0), h, m, sec⟩ := by
  rw [timerdec]
  split
  · next hz => obtain ⟨rfl, rfl, rfl⟩ := hz; rfl
  · next hz => rw [decide_eq_false hz]

theorem timerenc_eq (o : Bool) (h m sec : Byte) :
    timerenc o h m sec = (if o = true then 0 else h, if o = true then 0 else m, if o = true then 0 else sec) := by
  cases o <;> rfl

theorem flagByte_eq (x : Bool) : flagByte x = if x = true then 0x80 else 0x00 := by
  cases x <;> rfl

/-- The low byte's value over the domain (40_encoder R133). -/
theorem tsplit_low_toNat {t : BitVec 9} (h : t.toNat ≤ 482) :
    (tsplit t).1.toNat = if t.toNat > 255 then t.toNat - 255 else t.toNat := by
  rw [tsplit, show tempWrap = 255 from rfl]
  split
  · rw [BitVec.toNat_ofNat]; omega
  · rw [BitVec.toNat_ofNat]; omega

theorem tsplit_flag_iff (t : BitVec 9) : (tsplit t).2 = true ↔ t.toNat > 255 := by
  rw [tsplit, show tempWrap = 255 from rfl]
  split
  · next h => exact iff_of_true rfl h
  · next h => exact iff_of_false Bool.false_ne_true h

/-! ### Entries byte by byte -/

section Entry

variable (name tail : List Byte) {w z k : Nat}

theorem entry_name_byte (h : k < w) :
    (nameput name w ++ List.replicate z 0x00 ++ tail)[k]? = some (name.getD k 0x00) := by
  rw [List.append_assoc, List.getElem?_append_left (by rwa [length_nameput]), nameput_getElem? name h]

theorem entry_gap_byte (hlo : w ≤ k) (hhi : k < w + z) :
    (nameput name w ++ List.replicate z 0x00 ++ tail)[k]? = some 0x00 := by
  rw [List.append_assoc, List.getElem?_append_right (by rwa [length_nameput]), length_nameput,
    List.getElem?_append_left (by rw [List.length_replicate]; omega), List.getElem?_replicate, if_pos (by omega)]

theorem entry_tail_byte (w z j : Nat) : (nameput name w ++ List.replicate z 0x00 ++ tail)[w + z + j]? = tail[j]? := by
  rw [List.getElem?_append_right (by simp [length_nameput])]
  simp [length_nameput]

end Entry

/-- A program entry: name field, zeros, and the six bytes from address 30 (40_encoder R137). -/
theorem packp_eq_fields (r : ProgramRecord) : packp r =
    nameput r.name 26 ++ List.replicate 4 0x00 ++
      [(tsplit r.temperature).1,
        ctrlpack (tsplit r.temperature).2 (ord r.afterTimer 4) (ord r.powerLevel 4) (ord r.timerStart 3),
        if r.timerOff = true then 0 else r.hours, if r.timerOff = true then 0 else r.minutes,
        if r.timerOff = true then 0 else r.seconds, csum (packp r)] := by
  refine (packp_eq r).trans ?_
  rw [packpBody, List.append_assoc, timerenc_eq]
  rfl

/-- An alarm entry: name field, zeros, and the six bytes from address 30 (40_encoder R138). -/
theorem packa_eq_fields (r : AlarmRecord) : packa r =
    nameput r.name 20 ++ List.replicate 10 0x00 ++
      [(tsplit r.temperature).1, if (tsplit r.temperature).2 = true then 0x80 else 0x00, 0x00, 0x00, 0x00,
        csum (packa r)] := by
  refine (packa_eq r).trans ?_
  rw [packaBody, List.append_assoc, flagByte_eq]
  rfl

/-- Bytes 30 to 35 of a program entry (40_encoder R137). -/
theorem packp_tail_byte (r : ProgramRecord) (j : Nat) : (packp r)[30 + j]? =
    [(tsplit r.temperature).1,
      ctrlpack (tsplit r.temperature).2 (ord r.afterTimer 4) (ord r.powerLevel 4) (ord r.timerStart 3),
      if r.timerOff = true then 0 else r.hours, if r.timerOff = true then 0 else r.minutes,
      if r.timerOff = true then 0 else r.seconds, csum (packp r)][j]? :=
  (congrArg (·[30 + j]?) (packp_eq_fields r)).trans (entry_tail_byte r.name _ 26 4 j)

/-- Bytes 30 to 35 of an alarm entry (40_encoder R138). -/
theorem packa_tail_byte (r : AlarmRecord) (j : Nat) : (packa r)[30 + j]? =
    [(tsplit r.temperature).1, if (tsplit r.temperature).2 = true then 0x80 else 0x00, 0x00, 0x00, 0x00,
      csum (packa r)][j]? :=
  (congrArg (·[30 + j]?) (packa_eq_fields r)).trans (entry_tail_byte r.name _ 20 10 j)

/-! ### The error ENCODE reports -/

/-- A name that begins with the sentinel fails first, whatever the temperature (40_encoder R131). -/
theorem checkRec_nameError {name : List Byte} (h : name.head? = some 0xFF) (t : BitVec 9) :
    checkRec name t = some .nameError := if_pos h

theorem checkRec_domainError {name : List Byte} {t : BitVec 9} (hname : name.head? ≠ some 0xFF)
    (ht : t.toNat > 482) : checkRec name t = some .domainError := by
  rw [checkRec, if_neg hname, if_pos ht]

/-- CHECKREC passes a well-formed program (40_encoder R131). -/
theorem checkRec_program_eq_none {r : ProgramRecord} (h : ProgramWellFormed r) :
    checkRec r.name r.temperature = none := checkRec_eq_none.mpr h

/-- CHECKREC passes a well-formed alarm (40_encoder R131). -/
theorem checkRec_alarm_eq_none {r : AlarmRecord} (h : AlarmWellFormed r) :
    checkRec r.name r.temperature = none := checkRec_eq_none.mpr h

/-- With fitting lists phase 1 is the scan of P, then the scan of A (40_encoder R141). -/
theorem encodeError_of_fit {s : State} (h : ListsFit s) : encodeError s =
    (firstBad 0x00 0 (s.p.map fun r => (r.name, r.temperature))).or
      (firstBad 0x80 0 (s.a.map fun r => (r.name, r.temperature))) := by
  have hp := programs_of_fit h
  have ha := alarms_of_fit h
  obtain ⟨-, -, hnp, hna⟩ := h
  rw [encodeError, if_neg (Nat.not_lt.mpr hnp), if_neg (Nat.not_lt.mpr hna), hp, ha]
  cases firstBad 0x00 0 (s.p.map fun r => (r.name, r.temperature)) <;> rfl

/-- A scan finds nothing in a list of records that pass. -/
theorem firstBad_map_eq_none {α : Type} {field : α → List Byte × BitVec 9} {l : List α} (lb : Byte)
    (h : ∀ q ∈ l, checkRec (field q).1 (field q).2 = none) : firstBad lb 0 (l.map field) = none :=
  firstBad_eq_none.mpr (List.forall_mem_map.mpr h)

/-- A scan reports the record that fails after records that pass (60_exceptions R237). -/
theorem firstBad_map_eq_some {α : Type} {field : α → List Byte × BitVec 9} {l : List α} {k : Nat} {r : α}
    {e : BlockError} (lb : Byte) (hr : l[k]? = some r) (he : checkRec (field r).1 (field r).2 = some e)
    (h : ∀ q ∈ l.take k, checkRec (field q).1 (field q).2 = none) :
    firstBad lb 0 (l.map field) = some (e, lb ||| BitVec.ofNat 8 k) := by
  refine firstBad_eq_some.mpr ⟨k, field r, by rw [List.getElem?_map, hr]; rfl, he, by rw [Nat.zero_add], ?_⟩
  rw [← List.map_take]
  exact List.forall_mem_map.mpr h

/-- The index byte of a program: bit 7 is 0 (10_state R32). -/
theorem program_index_byte (k : Nat) : (0x00 : Byte) ||| BitVec.ofNat 8 k = BitVec.ofNat 8 k := BitVec.zero_or

/-- The index byte of an alarm: bit 7 is the list, bits 6:0 the index (10_state R32). -/
theorem alarm_index_byte {k : Nat} (h : k < 112) : (0x80 : Byte) ||| BitVec.ofNat 8 k = BitVec.ofNat 8 (128 + k) := by
  revert k; decide

/-- The first program that fails decides how ENCODE ends (60_exceptions R237). -/
theorem encodeError_of_bad_program {s : State} (h : ListsFit s) {k : Nat} {r : ProgramRecord} {e : BlockError}
    (hr : s.p[k]? = some r) (hbefore : ∀ q ∈ s.p.take k, ProgramWellFormed q)
    (he : checkRec r.name r.temperature = some e) : encodeError s = some (e, BitVec.ofNat 8 k) := by
  have hscan := firstBad_map_eq_some (field := fun q => (q.name, q.temperature)) 0x00 hr he
    fun q hq => checkRec_program_eq_none (hbefore q hq)
  rw [encodeError_of_fit h, hscan, Option.some_or, program_index_byte]

/-- With programs that pass, the first alarm that fails decides how ENCODE ends (60_exceptions R237). -/
theorem encodeError_of_bad_alarm {s : State} (h : ListsFit s) {k : Nat} {r : AlarmRecord} {e : BlockError}
    (hr : s.a[k]? = some r) (hprograms : ∀ q ∈ s.p, ProgramWellFormed q)
    (hbefore : ∀ q ∈ s.a.take k, AlarmWellFormed q) (he : checkRec r.name r.temperature = some e) :
    encodeError s = some (e, BitVec.ofNat 8 (128 + k)) := by
  obtain ⟨hk, -⟩ := List.getElem?_eq_some_iff.mp hr
  have hk112 : k < 112 := by
    obtain ⟨-, hlen, -, hna⟩ := h
    omega
  have hscanP := firstBad_map_eq_none (field := fun q => (q.name, q.temperature)) 0x00
    fun q hq => checkRec_program_eq_none (hprograms q hq)
  have hscanA := firstBad_map_eq_some (field := fun q => (q.name, q.temperature)) 0x80 hr he
    fun q hq => checkRec_alarm_eq_none (hbefore q hq)
  rw [encodeError_of_fit h, hscanP, Option.none_or, hscanA, alarm_index_byte hk112]

/-- ENCODE with an error found in phase 1 ends in its error entry (60_exceptions R238). -/
theorem exec_encode_errorEntry {s : State} {e : BlockError} {info : Byte} (h : encodeError s = some (e, info)) :
    ∃ t, exec .encode s = .next t ∧ ErrorEntry s t e.code info :=
  ⟨_, exec_of_errorCause (i := .encode) h, raise_errorEntry e info s⟩

/-! ### The image ENCODE writes -/

/-- "ENCODE cannot fail" on lists it accepts (40_encoder R141). -/
theorem success_encode_of_accepts {s : State} (h : EncodeAccepts s) : Success .encode s (encodedState s) :=
  ⟨encodeError_of_accepts h, rfl⟩

theorem exec_encode_of_accepts {s : State} (h : EncodeAccepts s) : exec .encode s = .next (encodedState s) :=
  exec_of_success (success_encode_of_accepts h)

theorem eq_encodedState {s t : State} (h : EncodeAccepts s) (ht : exec .encode s = .next t) : t = encodedState s := by
  rw [exec_encode_of_accepts h] at ht
  cases ht
  rfl

theorem encodedState_imgByte (s : State) (y : Nat) :
    (encodedState s).imgByte y = readByte s.resets (encodeImage s) y := rfl

/-- Entries placed over two images agree where the images agreed. -/
theorem written_placeEntries_congr (addr : Nat → Nat) {y : Nat} (es : List (List Byte)) :
    ∀ (i : Nat) {m m' : Memory}, written m y = written m' y →
      written (placeEntries addr i es m) y = written (placeEntries addr i es m') y := by
  induction es with
  | nil => exact fun _ _ _ h => h
  | cons e es ih => exact fun i m m' h => ih (i + 1) (by rw [written_writeSeq, written_writeSeq, h])

/-- The fill hides what IMG held (40_encoder R142 e). -/
theorem written_encodeImage_congr {s s' : State} (hp : s'.programs = s.programs) (ha : s'.alarms = s.alarms)
    {y : Nat} (hy : y < 8192) : written (encodeImage s') y = written (encodeImage s) y := by
  rw [encodeImage, encodeImage, hp, ha]
  refine written_placeEntries_congr _ _ _ (written_placeEntries_congr _ _ _ ?_)
  rw [written_writeSeq, written_writeSeq, List.length_replicate, Nat.zero_add, if_pos ⟨Nat.zero_le y, hy⟩,
    if_pos ⟨Nat.zero_le y, hy⟩]

/-- A byte that has been written reads the same after any number of resets. -/
theorem readByte_of_written {m m' : Memory} {y : Nat} (n n' : Nat) (hsome : (written m y).isSome)
    (h : written m' y = written m y) : readByte n' m' y = readByte n m y := by
  obtain ⟨v, hv⟩ := Option.isSome_iff_exists.mp hsome
  rw [readByte, readByte, h, hv, Option.getD_some, Option.getD_some]

/-- The 36 bytes of a slot that holds this record, or none (40_encoder R142 a). -/
def slotEntry {α : Type} (pack : α → List Byte) (o : Option α) : List Byte :=
  match o with
  | some r => pack r
  | none => List.replicate 36 0xFF

/-- A slot's bytes, told one by one. -/
theorem slotBytes_eq {s : State} {b sl : Nat} {e : List Byte} (hlen : e.length = 36)
    (h : ∀ k, k < 36 → s.imgByte (256 * b + 36 * sl + k) = e.getD k 0) : slotBytes s b sl = e := by
  refine List.ext_getElem (by simp [slotBytes, hlen]) fun k hk hk' => ?_
  have hbyte := h k (hlen ▸ hk')
  rw [List.getD_eq_getElem _ _ hk'] at hbyte
  simpa [slotBytes] using hbyte

theorem length_slotEntry {α : Type} {pack : α → List Byte} (hpack : ∀ r, (pack r).length = 36) (o : Option α) :
    (slotEntry pack o).length = 36 := by
  cases o with
  | some r => exact hpack r
  | none => exact List.length_replicate

theorem getD_slotEntry_none {α : Type} (pack : α → List Byte) {k : Nat} (hk : k < 36) :
    (slotEntry pack none).getD k 0 = 0xFF :=
  List.getD_replicate (x := (0xFF : Byte)) (y := 0) hk

/-- A program slot after ENCODE (40_encoder R142 a). -/
theorem slotBytes_encodedState_program {s : State} (h : ListsFit s) {b sl : Nat} (hb : b < 16) (hsl : sl < 7) :
    slotBytes (encodedState s) b sl = slotEntry packp s.p[7 * b + sl]? := by
  refine slotBytes_eq (length_slotEntry length_packp _) fun k hk =>
    (encodeImage_programSlot h s.resets hb hsl hk).trans ?_
  cases s.p[7 * b + sl]? with
  | some r => rfl
  | none => exact (getD_slotEntry_none packp hk).symm

/-- An alarm slot after ENCODE, block `16 + b` (40_encoder R142 a). -/
theorem slotBytes_encodedState_alarm {s : State} (h : ListsFit s) {b sl : Nat} (hb : b < 16) (hsl : sl < 7) :
    slotBytes (encodedState s) (16 + b) sl = slotEntry packa s.a[7 * b + sl]? := by
  refine slotBytes_eq (length_slotEntry length_packa _) fun k hk =>
    (encodeImage_alarmSlot h s.resets hb hsl hk).trans ?_
  cases s.a[7 * b + sl]? with
  | some r => rfl
  | none => exact (getD_slotEntry_none packa hk).symm

/-! ### The sentinel and the checksum of a slot -/

/-- A name that does not begin with 0xFF leaves another byte at the front of its field, 0x00 if it is empty. -/
theorem getD_zero_ne_fill {name : List Byte} (h : name.head? ≠ some 0xFF) : name.getD 0 0x00 ≠ 0xFF := by
  cases name with
  | nil => decide
  | cons v name => exact fun hv => h (congrArg some hv)

/-- Entries that do not begin with 0xFF make it the mark of the empty slots (20_memory R58). -/
theorem slotEntry_head_eq_fill_iff {α : Type} {pack : α → List Byte} {l : List α} (i : Nat)
    (hpack : ∀ r ∈ l, (pack r).getD 0 0 ≠ 0xFF) : entryByte (slotEntry pack l[i]?) 0 = 0xFF ↔ l.length ≤ i := by
  rw [← List.getElem?_eq_none_iff]
  cases hr : l[i]? with
  | some r => exact iff_of_false (hpack r (List.mem_of_getElem? hr)) (Option.some_ne_none r)
  | none => exact iff_of_true rfl rfl

/-- The first byte of a slot. -/
theorem imgByte_slot_head (s : State) (b sl : Nat) :
    s.imgByte (256 * b + 36 * sl) = entryByte (slotBytes s b sl) 0 :=
  (entryByte_slotBytes s b sl (k := 0) (by decide)).symm

/-- The checksum CSVFY computes is that of the slot's bytes (42_checksum R211). -/
theorem imageSum_slot (s : State) (b sl : Nat) : imageSum s (256 * b + 36 * sl) = csum (slotBytes s b sl) := by
  rw [← memRead_slot, csum_memRead s _ (by decide)]

/-- CSVFY of a slot of an encoded section: an entry holds its own checksum, and 35 bytes of 0xFF sum to 0xDD
(42_checksum R213). -/
theorem exec_csvfy_slotEntry {α : Type} {pack : α → List Byte} {l : List α} {i : Nat} {t : State} {b : BitVec 5}
    {sl : BitVec 3} (hsl : sl ≠ 7) (hpack : ∀ r, (pack r).getD 35 0 = csum (pack r))
    (hslot : slotBytes t b.toNat sl.toNat = slotEntry pack l[i]?) :
    ∃ u, exec (.csvfy b sl) t = .next u ∧ (statusCsok u.status = true ↔ i < l.length) ∧
      (statusCsok u.status = false → u.csval = 0xDD) := by
  refine ⟨verifiedState (eaAddr b sl) t, exec_of_success (i := .csvfy b sl) ⟨hsl, rfl⟩, ?_⟩
  have hcsval : (verifiedState (eaAddr b sl) t).csval = csum (slotEntry pack l[i]?) := by
    rw [← hslot, ← imageSum_slot]; rfl
  have hcsok : statusCsok (verifiedState (eaAddr b sl) t).status = true ↔
      entryByte (slotEntry pack l[i]?) 35 = csum (slotEntry pack l[i]?) := by
    rw [statusCsok_verifiedState, eaAddr_eq, imageSum_slot, ← entryByte_slotBytes t _ _ (k := 35) (by decide), hslot]
  rw [← Bool.not_eq_true, hcsok, hcsval, ← not_iff_not (b := i < l.length), Nat.not_lt, ← List.getElem?_eq_none_iff]
  cases l[i]? with
  | some r =>
    have hverifies : entryByte (slotEntry pack (some r)) 35 = csum (slotEntry pack (some r)) := hpack r
    exact ⟨iff_of_false (not_not_intro hverifies) (Option.some_ne_none r), fun h => absurd hverifies h⟩
  | none =>
    have hsum : csum (slotEntry pack none) = 0xDD := show csum (List.replicate 36 0xFF) = 0xDD by decide
    have hlast : entryByte (slotEntry pack none) 35 = 0xFF := rfl
    exact ⟨iff_of_true (by rw [hsum, hlast]; decide) rfl, fun _ => hsum⟩

/-! ### The obligations -/

/-- Settles O15: the scan of each list reports its first failure, and P is scanned before A. -/
theorem encodeReportsTheFirstBadRecord : Obligations.EncodeReportsTheFirstBadRecord := by
  intro s hfit
  refine ⟨fun k r hr hbefore => ⟨fun hname => ?_, fun hname ht => ?_⟩,
    fun k r hr hprograms hbefore => ⟨fun hname => ?_, fun hname ht => ?_⟩⟩
  · exact exec_encode_errorEntry (encodeError_of_bad_program hfit hr hbefore (checkRec_nameError hname _))
  · exact exec_encode_errorEntry (encodeError_of_bad_program hfit hr hbefore (checkRec_domainError hname ht))
  · exact exec_encode_errorEntry (encodeError_of_bad_alarm hfit hr hprograms hbefore (checkRec_nameError hname _))
  · exact exec_encode_errorEntry (encodeError_of_bad_alarm hfit hr hprograms hbefore (checkRec_domainError hname ht))

/-- Settles O25: the cut name, then zeros up to W bytes. -/
theorem nameFieldIsJustifiedAndPadded : Obligations.NameFieldIsJustifiedAndPadded := fun name w =>
  ⟨length_nameput name w, fun _ => nameput_getElem? name⟩

/-- Settles O29: the entry is its name field, four zeros and the six bytes from 30. -/
theorem programEntryLayout : Obligations.ProgramEntryLayout := by
  intro r
  refine ⟨length_packp r, fun k hk => ?_, fun k hlo hhi => ?_, packp_tail_byte r 0, packp_tail_byte r 1,
    packp_tail_byte r 2, packp_tail_byte r 3, packp_tail_byte r 4, packp_tail_byte r 5⟩
  · rw [packp_eq_fields, entry_name_byte _ _ hk]
  · rw [packp_eq_fields, entry_gap_byte _ _ hlo hhi]

/-- Settles O30: the entry is its name field, ten zeros and the six bytes from 30. -/
theorem alarmEntryLayout : Obligations.AlarmEntryLayout := by
  intro r
  refine ⟨length_packa r, fun k hk => ?_, fun k hlo hhi => ?_, packa_tail_byte r 0, packa_tail_byte r 1,
    fun k hlo hhi => ?_, packa_tail_byte r 5⟩
  · rw [packa_eq_fields, entry_name_byte _ _ hk]
  · rw [packa_eq_fields, entry_gap_byte _ _ hlo hhi]
  · obtain rfl | rfl | rfl : k = 32 ∨ k = 33 ∨ k = 34 := by omega
    · exact packa_tail_byte r 2
    · exact packa_tail_byte r 3
    · exact packa_tail_byte r 4

/-- Settles O42: the image slot by slot and filler by filler, and the frame of the state ENCODE leaves. -/
theorem encodeWritesTheImage : Obligations.EncodeWritesTheImage := by
  intro s h
  refine ⟨encodedState s, exec_encode_of_accepts h, rfl, (success_encode_of_accepts h).flags, by simp [encodedState],
    fun b sl k hb hsl hk => ?_, fun b sl k hlo hhi hsl hk => ?_,
    fun b k hb hlo hhi => encodeImage_filler s _ hb hlo hhi, fun y hy => encodeImage_above h.1 _ hy⟩
  · refine (encodeImage_programSlot h.1 s.resets hb hsl hk).trans ?_
    cases s.p[7 * b + sl]? with
    | some r => rfl
    | none => rfl
  · obtain ⟨c, rfl⟩ := Nat.exists_eq_add_of_le hlo
    rw [Nat.add_sub_cancel_left]
    refine (encodeImage_alarmSlot h.1 s.resets (by omega) hsl hk).trans ?_
    cases s.a[7 * c + sl]? with
    | some r => rfl
    | none => rfl

/-- Settles O43: every byte of the image has been written by the fill or an entry, and those are the same. -/
theorem encodedImageDependsOnListsOnly : Obligations.EncodedImageDependsOnListsOnly := by
  intro s s' t h hp hnp ha hna ht
  obtain rfl := eq_encodedState h ht
  have h' : EncodeAccepts s' := by rwa [EncodeAccepts, ListsFit, hp, hnp, ha, hna]
  have hprograms : s'.programs = s.programs := by rw [State.programs, State.programs, hp, hnp]
  have halarms : s'.alarms = s.alarms := by rw [State.alarms, State.alarms, ha, hna]
  refine ⟨encodedState s', exec_encode_of_accepts h', (success_encode_of_accepts h').flags.1, rfl, fun y hy => ?_⟩
  rw [encodedState_imgByte, encodedState_imgByte]
  exact readByte_of_written _ _ (written_encodeImage s hy) (written_encodeImage_congr hprograms halarms hy)

/-- Settles O44: an entry begins as its name does, or with 0x00; an empty slot with 0xFF. -/
theorem sentinelMarksExactlyTheEmptySlots : Obligations.SentinelMarksExactlyTheEmptySlots := by
  intro s t h ht b sl hb hsl
  obtain rfl := eq_encodedState h ht
  obtain ⟨hfit, hprograms, halarms⟩ := h
  have hpackp : ∀ r ∈ s.p, (packp r).getD 0 0 ≠ 0xFF := fun r hr =>
    packp_getD_name r (k := 0) (by decide) ▸ getD_zero_ne_fill (hprograms r hr).1
  have hpacka : ∀ r ∈ s.a, (packa r).getD 0 0 ≠ 0xFF := fun r hr =>
    packa_getD_name r (k := 0) (by decide) ▸ getD_zero_ne_fill (halarms r hr).1
  constructor
  · rw [imgByte_slot_head, slotBytes_encodedState_program hfit hb hsl, slotEntry_head_eq_fill_iff _ hpackp, hfit.1]
  · rw [show 4096 + 256 * b = 256 * (16 + b) by omega, imgByte_slot_head, slotBytes_encodedState_alarm hfit hb hsl,
      slotEntry_head_eq_fill_iff _ hpacka, hfit.2.1]

/-- Settles O45: an entry's byte 35 is its checksum; an empty slot's is 0xFF, and its sum 0xDD. -/
theorem encodedSlotsVerify : Obligations.EncodedSlotsVerify := by
  intro s t h ht b sl hsl
  obtain rfl := eq_encodedState h ht
  obtain ⟨hnp, hna, -, -⟩ := h.1
  have hsl7 : sl.toNat < 7 := Nat.lt_succ_of_le (slot_le_six hsl)
  by_cases hb : b.toNat < 16
  · rw [if_pos hb, ← hnp]
    exact exec_csvfy_slotEntry hsl packp_getD_35 (slotBytes_encodedState_program h.1 hb hsl7)
  · have hslot := slotBytes_encodedState_alarm h.1 (b := b.toNat - 16) (by have := b.isLt; omega) hsl7
    rw [Nat.add_sub_cancel' (Nat.le_of_not_lt hb)] at hslot
    rw [if_neg hb, ← hna]
    exact exec_csvfy_slotEntry hsl packa_getD_35 hslot

/-- Settles O20: a code below a codebook of at most four fits 2 bits. -/
theorem unrecognisedLabelsPackAsZero : Obligations.UnrecognisedLabelsPackAsZero := fun code _ => ord_lt code

/-- Settles O22: with the flag the low byte is at least 1. -/
theorem temperatureSplit : Obligations.TemperatureSplit := by
  intro t ht
  have hlow := tsplit_low_toNat ht
  have hflag := tsplit_flag_iff t
  refine ⟨hlow, hflag, fun hpair => ?_⟩
  have hhigh : t.toNat > 255 := hflag.mp (congrArg Prod.snd hpair)
  have hzero : 0 = t.toNat - 255 := by rwa [hpair, if_pos hhigh] at hlow
  omega

/-- Settles O24: the value of the byte gives the fields back, and bit 4 is in none. -/
theorem controlByteRoundTrip : Obligations.ControlByteRoundTrip := by
  refine ⟨fun x aft pl ts => ⟨ctrlpack_toNat x aft pl ts, ctrlpack_getLsbD_four x aft pl ts,
    ctrlunpack_ctrlpack x aft pl ts⟩, fun c => ?_⟩
  obtain ⟨hx, haft, hpl, hts⟩ := ctrlunpack_toNat c
  exact ⟨by rw [hx, decide_eq_true_eq], haft, hpl, hts, ctrlunpack_xor_bit_four c⟩

/-- Settles O28: decoding keeps the three bytes as they are. -/
theorem timerBytesRoundTrip : Obligations.TimerBytesRoundTrip := by
  intro o h m sec
  rw [timerdec_eq]
  exact ⟨rfl, decide_eq_true_iff, rfl, rfl, rfl⟩

end Sys2Proof.Machine
end

section
/-! PROOFS. The decoder: its micro-operations, the records it unpacks, the round trip, and DECODE (41_decoder). -/

namespace Sys2Proof.Machine

/-! ### Names -/

/-- The name ends where the first zero byte of the field stands, at its end if there is none (41_decoder R171). -/
theorem nameget_eq_take (e : List Byte) (w : Nat) :
    nameget e w = (e.take w).take ((e.take w).findIdx fun v => !decide (v ≠ 0x00)) :=
  List.takeWhile_eq_take_findIdx_not

/-- What a name that comes out of an entry is like: 1 to `w` bytes, none 0x00, none of the whitespace set at either end
(41_decoder R184). -/
def NameComesOut (white : List Byte) (w : Nat) (n : List Byte) : Prop :=
  1 ≤ n.length ∧ n.length ≤ w ∧ 0x00 ∉ n ∧ ∀ v, n.head? = some v ∨ n.getLast? = some v → v ∉ white

/-- NAMEGET bounds the length and stops at a zero, TRIM strips the ends, and both only drop bytes. -/
theorem nameComesOut_of_ne_nil {white e : List Byte} {w : Nat} (h : trim white (nameget e w) ≠ []) :
    NameComesOut white w (trim white (nameget e w)) := by
  obtain ⟨-, -, -, -, -, hhead, hlast⟩ := trim_spec white (nameget e w)
  have hsub := trim_sublist white (nameget e w)
  exact ⟨List.length_pos_iff.mpr h, hsub.length_le.trans (length_nameget_le e w),
    fun hz => zero_notMem_nameget e w (hsub.subset hz), fun v hv => hv.elim (hhead v) (hlast v)⟩

/-- A name that fits its field and holds no 0x00 is read back from it (40_encoder R135, 41_decoder R171). -/
theorem nameget_nameput_append {name : List Byte} {w : Nat} (hlen : name.length ≤ w) (hzero : 0x00 ∉ name)
    (tail : List Byte) : nameget (nameput name w ++ tail) w = name := by
  have hpos : ∀ v ∈ name, decide (v ≠ 0x00) = true := fun v hv => decide_eq_true fun h0 => hzero (h0 ▸ hv)
  rw [nameget, List.take_left' (length_nameput name w), nameput, List.take_of_length_le hlen,
    List.takeWhile_append_of_pos hpos, List.takeWhile_replicate]
  exact List.append_nil name

/-- A name that meets the conditions comes out of its field as it went in (41_decoder R182). -/
theorem trim_nameget_of_survives {w : Nat} {name : List Byte} (h : NameSurvives w name) (tail : List Byte) :
    trim ws (nameget (nameput name w ++ tail) w) = name := by
  obtain ⟨-, hlen, hzero, hhead, hlast⟩ := h
  rw [nameget_nameput_append hlen hzero]
  exact trim_eq_self (fun v hv => (hhead v hv).1) hlast

theorem ne_nil_of_nameSurvives {w : Nat} {name : List Byte} (h : NameSurvives w name) : name ≠ [] :=
  List.length_pos_iff.mp h.1

/-- A name that meets the conditions does not look like an empty slot (41_decoder R182 iv). -/
theorem head_ne_fill_of_nameSurvives {w : Nat} {name : List Byte} (h : NameSurvives w name) :
    name.head? ≠ some 0xFF := by
  obtain ⟨-, -, -, hhead, -⟩ := h
  exact fun hv => (hhead _ hv).2 rfl

/-! ### Fields -/

/-- TJOIN undoes TSPLIT on the whole domain (41_decoder R173). -/
theorem tjoin_tsplit {t : BitVec 9} (h : t.toNat ≤ 482) : tjoin (tsplit t).1 (tsplit t).2 = t := by
  refine BitVec.eq_of_toNat_eq ?_
  rw [tjoin_toNat, tsplit_low_toNat h]
  simp only [tsplit_flag_iff]
  split <;> omega

/-- An ordinal ORD gives has a label, so the fallback does not act on it (41_decoder R174). -/
theorem lab_ord (code : Byte) {size : Nat} (h : 1 ≤ size) (h4 : size ≤ 4) :
    lab (ord code size) size = (ord code size).setWidth 8 :=
  if_pos (ord_lt code h h4).2

/-- The ordinal of a recognised code is the code (40_encoder R132). -/
theorem setWidth_ord {code : Byte} {size : Nat} (h : code.toNat < size) (h4 : size ≤ 4) :
    (ord code size).setWidth 8 = code := by
  refine BitVec.eq_of_toNat_eq ?_
  rw [BitVec.toNat_setWidth_of_le (by decide), (ord_lt code (by omega) h4).1, if_pos h]

/-- NORM says what TIMERENC and TIMERDEC make of the timer (41_decoder R182). -/
theorem normTimer_eq (r : ProgramRecord) : normTimer r =
    { r with
      timerOff := decide ((if r.timerOff = true then 0 else r.hours) = 0 ∧
        (if r.timerOff = true then 0 else r.minutes) = 0 ∧ (if r.timerOff = true then 0 else r.seconds) = 0)
      hours := if r.timerOff = true then 0 else r.hours
      minutes := if r.timerOff = true then 0 else r.minutes
      seconds := if r.timerOff = true then 0 else r.seconds } := by
  obtain ⟨name, temperature, pl, off, h, m, sec, ts, aft⟩ := r
  cases off with
  | true => rfl
  | false =>
    by_cases hz : h = 0 ∧ m = 0 ∧ sec = 0
    · obtain ⟨rfl, rfl, rfl⟩ := hz
      rfl
    · simp only [normTimer, hz, Bool.false_eq_true, or_self, if_false, decide_false]

/-! ### Unpacking -/

/-- The program record with this name and the other fields of the entry (41_decoder R177). -/
def programFrom (n e : List Byte) : ProgramRecord where
  name := n
  temperature := tjoin (entryByte e 30) (ctrlunpack (entryByte e 31)).x
  powerLevel := lab (ctrlunpack (entryByte e 31)).pl 4
  timerOff := decide (entryByte e 32 = 0 ∧ entryByte e 33 = 0 ∧ entryByte e 34 = 0)
  hours := entryByte e 32
  minutes := entryByte e 33
  seconds := entryByte e 34
  timerStart := lab (ctrlunpack (entryByte e 31)).ts 3
  afterTimer := lab (ctrlunpack (entryByte e 31)).aft 4

/-- The alarm record with this name and the temperature of the entry (41_decoder R178). -/
def alarmFrom (n e : List Byte) : AlarmRecord where
  name := n
  temperature := tjoin (entryByte e 30) (ctrlunpack (entryByte e 31)).x

theorem unpkp_eq (white e : List Byte) : unpkp white e =
    if trim white (nameget e 26) = [] then none else some (programFrom (trim white (nameget e 26)) e) := by
  simp only [unpkp, timerdec_eq]
  rfl

theorem unpka_eq (white e : List Byte) : unpka white e =
    if trim white (nameget e 20) = [] then none else some (alarmFrom (trim white (nameget e 20)) e) := rfl

theorem unpkp_eq_some_iff {white e : List Byte} {r : ProgramRecord} : unpkp white e = some r ↔
    trim white (nameget e 26) ≠ [] ∧ programFrom (trim white (nameget e 26)) e = r := by
  rw [unpkp_eq, Option.ite_none_left_eq_some, Option.some.injEq]

theorem unpka_eq_some_iff {white e : List Byte} {r : AlarmRecord} : unpka white e = some r ↔
    trim white (nameget e 20) ≠ [] ∧ alarmFrom (trim white (nameget e 20)) e = r := by
  rw [unpka_eq, Option.ite_none_left_eq_some, Option.some.injEq]

/-- The temperature an entry gives: byte 30, plus 255 under bit 7 of byte 31 (41_decoder R173). -/
theorem tjoin_entry_toNat (tlo c : Byte) :
    (tjoin tlo (ctrlunpack c).x).toNat = tlo.toNat + if 128 ≤ c.toNat then 255 else 0 := by
  rw [tjoin_toNat, (ctrlunpack_toNat c).1]
  simp only [decide_eq_true_eq]

/-- The labels an entry gives, by arithmetic on byte 31 (41_decoder R174, R175). -/
theorem programFrom_labels (n e : List Byte) :
    (programFrom n e).powerLevel.toNat = (entryByte e 31).toNat / 4 % 4 ∧
    (programFrom n e).timerStart.toNat =
      (if (entryByte e 31).toNat % 4 < 3 then (entryByte e 31).toNat % 4 else 0) ∧
    (programFrom n e).afterTimer.toNat = (entryByte e 31).toNat / 32 % 4 := by
  obtain ⟨-, haft, hpl, hts⟩ := ctrlunpack_toNat (entryByte e 31)
  refine ⟨?_, ?_, ?_⟩
  · rw [programFrom, lab_toNat, hpl, if_pos (Nat.mod_lt _ (by decide))]
  · rw [programFrom, lab_toNat, hts]
  · rw [programFrom, lab_toNat, haft, if_pos (Nat.mod_lt _ (by decide))]

/-- No byte pair joins to more than 510 (41_decoder R184). -/
theorem tjoin_toNat_le (tlo : Byte) (x : Bool) : (tjoin tlo x).toNat ≤ 510 := by
  rw [tjoin_toNat]
  have := tlo.isLt
  split <;> omega

/-- Whatever the bytes of an entry, the fields are within these bounds (41_decoder R184). -/
theorem programFrom_bounds (n e : List Byte) : (programFrom n e).temperature.toNat ≤ 510 ∧
    (programFrom n e).powerLevel.toNat < 4 ∧ (programFrom n e).timerStart.toNat < 3 ∧
    (programFrom n e).afterTimer.toNat < 4 := by
  obtain ⟨hpl, hts, haft⟩ := programFrom_labels n e
  refine ⟨tjoin_toNat_le _ _, hpl ▸ Nat.mod_lt _ (by decide), ?_, haft ▸ Nat.mod_lt _ (by decide)⟩
  rw [hts]
  split <;> omega

/-! ### The round trip of a record -/

/-- A packed program begins with its name field (40_encoder R137). -/
theorem packp_eq_nameput_append (r : ProgramRecord) : ∃ tail, packp r = nameput r.name 26 ++ tail :=
  ⟨_, (packp_eq_fields r).trans (List.append_assoc _ _ _)⟩

/-- A packed alarm begins with its name field (40_encoder R138). -/
theorem packa_eq_nameput_append (r : AlarmRecord) : ∃ tail, packa r = nameput r.name 20 ++ tail :=
  ⟨_, (packa_eq_fields r).trans (List.append_assoc _ _ _)⟩

theorem trim_nameget_packp {r : ProgramRecord} (h : NameSurvives 26 r.name) :
    trim ws (nameget (packp r) 26) = r.name := by
  obtain ⟨tail, htail⟩ := packp_eq_nameput_append r
  rw [htail, trim_nameget_of_survives h]

theorem trim_nameget_packa {r : AlarmRecord} (h : NameSurvives 20 r.name) :
    trim ws (nameget (packa r) 20) = r.name := by
  obtain ⟨tail, htail⟩ := packa_eq_nameput_append r
  rw [htail, trim_nameget_of_survives h]

theorem entryByte_eq_of_getElem? {e : List Byte} {k : Nat} {v : Byte} (h : e[k]? = some v) : entryByte e k = v := by
  rw [entryByte, List.getD_eq_getElem?_getD, h, Option.getD_some]

/-- The fields of a packed program: the temperature, the ordinals of its labels, the normalised timer
(41_decoder R182). -/
theorem programFrom_packp {r : ProgramRecord} (ht : r.temperature.toNat ≤ 482) (n : List Byte) :
    programFrom n (packp r) = { normTimer r with
      name := n
      powerLevel := (ord r.powerLevel 4).setWidth 8
      timerStart := (ord r.timerStart 3).setWidth 8
      afterTimer := (ord r.afterTimer 4).setWidth 8 } := by
  obtain ⟨-, -, -, htlo, hctrl, hhours, hminutes, hseconds, -⟩ := programEntryLayout r
  rw [programFrom, entryByte_eq_of_getElem? htlo, entryByte_eq_of_getElem? hctrl, entryByte_eq_of_getElem? hhours,
    entryByte_eq_of_getElem? hminutes, entryByte_eq_of_getElem? hseconds, normTimer_eq]
  simp only [ctrlunpack_ctrlpack, tjoin_tsplit ht, lab_ord _ (show 1 ≤ 4 by decide) (show 4 ≤ 4 by decide),
    lab_ord _ (show 1 ≤ 3 by decide) (show 3 ≤ 4 by decide)]

/-- The temperature of a packed alarm (41_decoder R182). -/
theorem alarmFrom_packa {r : AlarmRecord} (ht : r.temperature.toNat ≤ 482) (n : List Byte) :
    alarmFrom n (packa r) = { r with name := n } := by
  obtain ⟨-, -, -, htlo, hflag, -, -⟩ := alarmEntryLayout r
  have hx : (ctrlunpack (entryByte (packa r) 31)).x = (tsplit r.temperature).2 := by
    rw [entryByte_eq_of_getElem? hflag]
    cases (tsplit r.temperature).2 <;> rfl
  rw [alarmFrom, entryByte_eq_of_getElem? htlo, hx, tjoin_tsplit ht]

/-- A program that meets the conditions comes back, its timer normalised (41_decoder R182). -/
theorem unpkp_packp {r : ProgramRecord} (h : ProgramSurvives r) : unpkp ws (packp r) = some (normTimer r) := by
  obtain ⟨hname, ht, hpl, hts, haft⟩ := h
  rw [unpkp_eq_some_iff, trim_nameget_packp hname, programFrom_packp ht, setWidth_ord hpl (by decide),
    setWidth_ord hts (by decide), setWidth_ord haft (by decide), normTimer_eq]
  exact ⟨ne_nil_of_nameSurvives hname, rfl⟩

/-- An alarm that meets the conditions comes back (41_decoder R182). -/
theorem unpka_packa {r : AlarmRecord} (h : AlarmSurvives r) : unpka ws (packa r) = some r := by
  obtain ⟨hname, ht⟩ := h
  rw [unpka_eq_some_iff, trim_nameget_packa hname, alarmFrom_packa ht]
  exact ⟨ne_nil_of_nameSurvives hname, rfl⟩

/-! ### DECODE of any image -/

theorem success_decode {s : State} (h : 8192 ≤ s.ilen.toNat) : Success .decode s (decodedState s) :=
  ⟨Nat.not_lt.mpr h, rfl⟩

theorem exec_decode_whole {s : State} (h : 8192 ≤ s.ilen.toNat) : exec .decode s = .next (decodedState s) :=
  exec_of_success (success_decode h)

/-- "`np` and `na` are at most 112" (41_decoder R180). -/
theorem decodedState_np_le (s : State) : (decodedState s).np.toNat ≤ 112 :=
  (decodedState_np s).trans_le (length_decodedPrograms_le s)

/-- "`np` and `na` are at most 112" (41_decoder R180). -/
theorem decodedState_na_le (s : State) : (decodedState s).na.toNat ≤ 112 :=
  (decodedState_na s).trans_le (length_decodedAlarms_le s)

/-- A record found in a section is what some slot unpacks to (41_decoder R180). -/
theorem exists_unpack_of_mem_section {α : Type} {unpack : List Byte → Option α} {slot : Nat → Nat → List Byte}
    {r : α}
    (h : r ∈ (List.range 16).flatMap fun b => (List.range 7).filterMap fun sl => slotRecord unpack (slot b sl)) :
    ∃ e, unpack e = some r := by
  obtain ⟨b, -, hb⟩ := List.mem_flatMap.mp h
  obtain ⟨sl, -, hr⟩ := List.mem_filterMap.mp hb
  exact ⟨_, unpack_of_slotRecord hr⟩

/-- DECODE writes neither CSVAL nor CSOK (41_decoder R181, 10_state R35). -/
theorem checksum_flags_of_exec_decode {s t : State} (h : exec .decode s = .next t) :
    t.csval = s.csval ∧ statusCsok t.status = statusCsok s.status := by
  rcases exec_cases h with ⟨e, info, -, rfl⟩ | ⟨-, rfl⟩
  · exact ⟨rfl, by simp⟩
  · exact ⟨by simp [decodedState], by simp [decodedState]⟩

/-- With CSOK written beforehand DECODE does the same: nothing reads it (41_decoder R181). -/
theorem exec_decode_setCsok {s t : State} (h : exec .decode s = .next t) (ok : Bool) :
    ∃ u, exec .decode (s.setCsok ok) = .next u ∧ u = { t with status := u.status } ∧
      statusErr u.status = statusErr t.status := by
  obtain ⟨t', u, ht', hu, hframe, herr, -⟩ :=
    noCommandReadsAFlag .decode s (setStatusCsok s.status ok) s.erridx s.csval
  obtain rfl : t = t' := by rw [h] at ht'; cases ht'; rfl
  have hcsval : u.csval = t.csval :=
    (checksum_flags_of_exec_decode hu).1.trans (checksum_flags_of_exec_decode h).1.symm
  exact ⟨u, hu, by rwa [hcsval] at hframe, herr⟩

/-- A byte of an entry before its byte 35 is byte 35 of no entry (20_memory R53). -/
theorem slot_byte_ne_checksum {b sl k : Nat} (hsl : sl < 7) (hk : k < 35) :
    ∀ b' sl', b' < 32 → sl' < 7 → 256 * b + 36 * sl + k ≠ 256 * b' + 36 * sl' + 35 := by
  intro b' sl' _ hsl' heq
  obtain ⟨-, -, rfl, -⟩ := slotsDoNotOverlap b sl b' sl' k 35 hsl hsl' (by omega) (by decide) heq
  exact Nat.lt_irrefl _ hk

/-- DECODE leaves IMG as it is, so it finds the same records again (41_decoder R183 g). -/
theorem decodedState_imgByte (s : State) (y : Nat) : (decodedState s).imgByte y = s.imgByte y := rfl

theorem decodedPrograms_decodedState (s : State) : decodedPrograms (decodedState s) = decodedPrograms s :=
  decodedPrograms_congr fun _ _ _ _ _ _ => decodedState_imgByte s _

theorem decodedAlarms_decodedState (s : State) : decodedAlarms (decodedState s) = decodedAlarms s :=
  decodedAlarms_congr fun _ _ _ _ _ _ _ => decodedState_imgByte s _

/-! ### DECODE of an encoded image -/

/-- What the slots of an encoded section decode to: the list itself, an empty slot giving nothing (41_decoder R182). -/
theorem slotRecord_slotEntry {α : Type} {pack : α → List Byte} {unpack : List Byte → Option α} {back : α → α}
    {l : List α} (h : ∀ r ∈ l, slotRecord unpack (pack r) = some (back r)) (i : Nat) :
    slotRecord unpack (slotEntry pack l[i]?) = (l.map back)[i]? := by
  rw [List.getElem?_map]
  cases hr : l[i]? with
  | some r => exact h r (List.mem_of_getElem? hr)
  | none => rfl

/-- The elements at the first `n` indices are the first `n` elements. -/
theorem filterMap_getElem?_range {α : Type} (l : List α) (n : Nat) :
    (List.range n).filterMap (fun i => l[i]?) = l.take n := by
  induction n with
  | zero => rfl
  | succ n ih =>
    rw [List.range_succ, List.filterMap_append, ih, List.take_add_one]
    cases hr : l[n]? <;> simp [hr]

/-- Slots in ascending order, seven to a block, run through a list in its order (20_memory R55). -/
theorem flatMap_slots_eq_take {α : Type} (l : List α) (n : Nat) :
    ((List.range n).flatMap fun b => (List.range 7).filterMap fun sl => l[7 * b + sl]?) = l.take (7 * n) := by
  induction n with
  | zero => rfl
  | succ n ih =>
    have hblock : ((List.range 7).filterMap fun sl => l[7 * n + sl]?) = (l.drop (7 * n)).take 7 := by
      simp only [← List.getElem?_drop, filterMap_getElem?_range]
    rw [List.range_succ (n := n), List.flatMap_append, ih, Nat.mul_succ, List.take_add, List.flatMap_singleton, hblock]

theorem flatMap_slots_eq_self {α : Type} {l : List α} (h : l.length ≤ 112) :
    ((List.range 16).flatMap fun b => (List.range 7).filterMap fun sl => l[7 * b + sl]?) = l := by
  rw [flatMap_slots_eq_take, List.take_of_length_le h]

theorem programWellFormed_of_survives {r : ProgramRecord} (h : ProgramSurvives r) : ProgramWellFormed r := by
  obtain ⟨hname, ht, -⟩ := h
  exact ⟨head_ne_fill_of_nameSurvives hname, ht⟩

theorem alarmWellFormed_of_survives {r : AlarmRecord} (h : AlarmSurvives r) : AlarmWellFormed r := by
  obtain ⟨hname, ht⟩ := h
  exact ⟨head_ne_fill_of_nameSurvives hname, ht⟩

/-- The entry of a surviving program is not taken for an empty slot (41_decoder R182 iv). -/
theorem slotRecord_packp {r : ProgramRecord} (h : ProgramSurvives r) :
    slotRecord (unpkp ws) (packp r) = some (normTimer r) := by
  have hfirst : entryByte (packp r) 0 ≠ fillByte :=
    (packp_getD_name r (by decide)).trans_ne (getD_zero_ne_fill (programWellFormed_of_survives h).1)
  rw [← decodeSlot_eq, decodeSlot, if_neg hfirst, unpkp_packp h]

theorem slotRecord_packa {r : AlarmRecord} (h : AlarmSurvives r) :
    slotRecord (unpka ws) (packa r) = some r := by
  have hfirst : entryByte (packa r) 0 ≠ fillByte :=
    (packa_getD_name r (by decide)).trans_ne (getD_zero_ne_fill (alarmWellFormed_of_survives h).1)
  rw [← decodeSlot_eq, decodeSlot, if_neg hfirst, unpka_packa h]

/-- The programs DECODE finds in the image of a list that meets the conditions (41_decoder R182). -/
theorem decodedPrograms_encodedState {s : State} (hfit : ListsFit s) (h : ∀ r ∈ s.p, ProgramSurvives r) :
    decodedPrograms (encodedState s) = s.p.map normTimer := by
  have ⟨hnp, _, hcap, _⟩ := hfit
  rw [decodedPrograms_eq, ← flatMap_slots_eq_self (l := s.p.map normTimer) (by rw [List.length_map]; omega)]
  refine List.flatMap_congr fun b hb => List.filterMap_congr fun sl hsl => ?_
  rw [slotBytes_encodedState_program hfit (List.mem_range.mp hb) (List.mem_range.mp hsl),
    slotRecord_slotEntry fun r hr => slotRecord_packp (h r hr)]

/-- The alarms DECODE finds in the image of a list that meets the conditions (41_decoder R182). -/
theorem decodedAlarms_encodedState {s : State} (hfit : ListsFit s) (h : ∀ r ∈ s.a, AlarmSurvives r) :
    decodedAlarms (encodedState s) = s.a := by
  have ⟨_, hna, _, hcap⟩ := hfit
  rw [decodedAlarms_eq, ← flatMap_slots_eq_self (l := s.a) (by omega)]
  refine List.flatMap_congr fun b hb => List.filterMap_congr fun sl hsl => ?_
  rw [slotBytes_encodedState_alarm hfit (List.mem_range.mp hb) (List.mem_range.mp hsl),
    slotRecord_slotEntry (pack := packa) (back := id) fun r hr => slotRecord_packa (h r hr), List.map_id]

/-- Lists that meet the conditions of the round trip are accepted by ENCODE (40_encoder R131). -/
theorem encodeAccepts_of_survives {s : State} (hfit : ListsFit s) (hp : ∀ r ∈ s.p, ProgramSurvives r)
    (ha : ∀ r ∈ s.a, AlarmSurvives r) : EncodeAccepts s :=
  ⟨hfit, fun r hr => programWellFormed_of_survives (hp r hr), fun r hr => alarmWellFormed_of_survives (ha r hr)⟩

theorem encodedState_ilen_toNat (s : State) : (encodedState s).ilen.toNat = 8192 :=
  setIlen_ilen_toNat (s.setImg (encodeImage s)) imageSize

/-! ### The obligations -/

/-- Settles O21: an ordinal of two bits is below 4, and 3 alone is not below 3. -/
theorem ordinalsWithoutLabelFallBack : Obligations.OrdinalsWithoutLabelFallBack := by
  intro o size
  refine ⟨lab_toNat o size, if_pos o.isLt, ?_, fun code hcode h4 => ?_⟩
  · revert o; decide
  · rw [lab_ord code (by omega) h4, setWidth_ord hcode h4]

/-- Settles O26: the length is the index of the first zero byte of the field. -/
theorem nameEndsAtTheFirstZero : Obligations.NameEndsAtTheFirstZero := by
  intro e w hw
  have hlen : (e.take w).length = w := List.length_take_of_le hw
  have hle := List.findIdx_le_length (xs := e.take w) (p := fun v => !decide (v ≠ 0x00))
  refine ⟨_, hle.trans_eq hlen, ?_, zero_notMem_nameget e w, fun hlt => ?_⟩
  · rw [nameget_eq_take, List.take_take, min_eq_left (hle.trans_eq hlen)]
  · have hzero := List.findIdx_getElem (w := hlt.trans_eq hlen.symm)
    rw [← List.getElem?_take_of_lt hlt, List.getElem?_eq_getElem (hlt.trans_eq hlen.symm)]
    simpa using hzero

/-- Settles O27: at each end the drop takes whitespace only, and goes on to the first byte that is none. -/
theorem trimStripsBothEnds : Obligations.TrimStripsBothEnds := trim_spec

/-- Settles O31: UNPKP fails for an empty name only, and each field is an arithmetic function of its byte. -/
theorem programEntryUnpacks : Obligations.ProgramEntryUnpacks := by
  intro white e
  refine ⟨fun h => ?_, fun h => ?_, fun r h => ?_⟩
  · rw [unpkp_eq, if_pos h]
  · obtain ⟨hpl, hts, haft⟩ := programFrom_labels (trim white (nameget e 26)) e
    exact ⟨_, unpkp_eq_some_iff.mpr ⟨h, rfl⟩, rfl, tjoin_entry_toNat _ _, hpl, hts, haft, decide_eq_true_iff,
      rfl, rfl, rfl⟩
  · obtain ⟨hname, rfl⟩ := unpkp_eq_some_iff.mp h
    exact nameComesOut_of_ne_nil hname

/-- Settles O32: UNPKA fails for an empty name only. -/
theorem alarmEntryUnpacks : Obligations.AlarmEntryUnpacks := by
  intro white e
  refine ⟨fun h => ?_, fun h => ?_, fun r h => ?_⟩
  · rw [unpka_eq, if_pos h]
  · exact ⟨_, unpka_eq_some_iff.mpr ⟨h, rfl⟩, rfl, tjoin_entry_toNat _ _⟩
  · obtain ⟨hname, rfl⟩ := unpka_eq_some_iff.mp h
    exact nameComesOut_of_ne_nil hname

/-- Settles O33: the name field gives the name back, and every other field undoes its packing. -/
theorem programRecordSurvivesRoundTrip : Obligations.ProgramRecordSurvivesRoundTrip := fun _ => unpkp_packp

/-- Settles O34: the name field gives the name back, and TJOIN undoes TSPLIT. -/
theorem alarmRecordSurvivesRoundTrip : Obligations.AlarmRecordSurvivesRoundTrip := fun _ => unpka_packa

/-- Settles O35: only the name decides whether a record comes out, and the fields do not depend on it. -/
theorem programRoundTripGeneralLaw : Obligations.ProgramRoundTripGeneralLaw := fun r ht =>
  ⟨fun h => by rw [unpkp_eq, if_pos h], fun h => unpkp_eq_some_iff.mpr ⟨h, programFrom_packp ht _⟩⟩

/-- Settles O46: a short image ends in the error entry; else the lists are those of the slots, at most 112 each. -/
theorem decodeUnpacksEverySlotInOrder : Obligations.DecodeUnpacksEverySlotInOrder := by
  intro s
  refine ⟨fun h => ⟨_, execDecode_short h, raise_errorEntry .formatError 0x00 s⟩, fun h => ?_⟩
  have hexec := exec_decode_whole h
  refine ⟨_, hexec, rfl, (success_decode h).flags, (checksum_flags_of_exec_decode hexec).2,
    (decodedState_p s).trans (decodedPrograms_eq s), (decodedState_a s).trans (decodedAlarms_eq s), ?_, ?_,
    decodedState_np_le s, decodedState_na_le s⟩
  · rw [decodedState_np, decodedState_p]
  · rw [decodedState_na, decodedState_a]

/-- Settles O47: the bytes DECODE looks at are none of the bytes 35, no command reads a flag, and DECODE
writes neither CSVAL nor CSOK. -/
theorem decodeIgnoresTheChecksumByte : Obligations.DecodeIgnoresTheChecksumByte := by
  intro s m hsame
  obtain ⟨t, hexec, hexec'⟩ := exec_decode_setImg (s := s) (m := m)
    (decodedPrograms_congr fun b sl k _ hsl hk => hsame _ (slot_byte_ne_checksum hsl (by omega)))
    (decodedAlarms_congr fun b sl k _ _ hsl hk => hsame _ (slot_byte_ne_checksum hsl (by omega)))
  obtain ⟨hcsval, hcsok⟩ := checksum_flags_of_exec_decode hexec
  exact ⟨t, _, hexec, hexec', rfl, hcsval, hcsok, exec_decode_setCsok hexec⟩

/-- Settles O49: every record found comes from some entry, whatever its bytes, and the last entry ends at 8187. -/
theorem decodeIsTotalWithinBounds : Obligations.DecodeIsTotalWithinBounds := by
  intro s hlen
  have hexec := exec_decode_whole hlen.ge
  have hflags := (success_decode hlen.ge).flags
  refine ⟨decodedState s, hexec, hflags.1, decodedState_np_le s, decodedState_na_le s, fun r hr => ?_,
    fun r hr => ?_, rfl, hflags, (checksum_flags_of_exec_decode hexec).2, fun m hsame => ?_⟩
  · rw [decodedState_p, decodedPrograms_eq] at hr
    obtain ⟨e, he⟩ := exists_unpack_of_mem_section hr
    obtain ⟨hname, rfl⟩ := unpkp_eq_some_iff.mp he
    obtain ⟨hmin, hmax, hzero, hends⟩ := nameComesOut_of_ne_nil hname
    obtain ⟨ht, hpl, hts, haft⟩ := programFrom_bounds (trim ws (nameget e 26)) e
    exact ⟨hmin, hmax, hzero, hends, ht, hpl, hts, haft, decide_eq_true_iff⟩
  · rw [decodedState_a, decodedAlarms_eq] at hr
    obtain ⟨e, he⟩ := exists_unpack_of_mem_section hr
    obtain ⟨hname, rfl⟩ := unpka_eq_some_iff.mp he
    obtain ⟨hmin, hmax, hzero, hends⟩ := nameComesOut_of_ne_nil hname
    exact ⟨hmin, hmax, hzero, hends, tjoin_toNat_le _ _⟩
  · obtain ⟨t, ht, ht'⟩ := exec_decode_setImg (s := s) (m := m)
      (decodedPrograms_congr fun b sl k _ _ _ => hsame _ (by omega))
      (decodedAlarms_congr fun b sl k _ _ _ _ => hsame _ (by omega))
    rw [hexec] at ht
    cases ht
    exact ht'

/-- Settles O50: ENCODE puts each record into its slot, and DECODE runs through the slots in the same order. -/
theorem encodeThenDecodeGivesTheListsBack : Obligations.EncodeThenDecodeGivesTheListsBack := by
  intro s hfit hp ha
  have hwhole := (encodedState_ilen_toNat s).ge
  have hprograms := decodedPrograms_encodedState hfit hp
  have halarms := decodedAlarms_encodedState hfit ha
  refine ⟨_, _, exec_encode_of_accepts (encodeAccepts_of_survives hfit hp ha), exec_decode_whole hwhole,
    (decodedState_p _).trans hprograms, (decodedState_a _).trans halarms, BitVec.eq_of_toNat_eq ?_,
    BitVec.eq_of_toNat_eq ?_, decodedState_imgByte _, (success_decode hwhole).flags.1⟩
  · rw [decodedState_np, hprograms, List.length_map, hfit.1]
  · rw [decodedState_na, halarms, hfit.2.1]

/-- Settles O51: DECODE changes neither ILEN nor IMG. -/
theorem decodeTwiceGivesTheSameLists : Obligations.DecodeTwiceGivesTheSameLists := by
  intro s t h
  rcases exec_cases h with ⟨e, info, hcause, rfl⟩ | ⟨hlen, rfl⟩
  · exact ⟨_, exec_of_errorCause (i := .decode) hcause, rfl, rfl, rfl, rfl, by simp⟩
  · refine ⟨_, exec_of_success (i := .decode) ⟨hlen, rfl⟩, ?_, ?_, ?_, ?_, ?_⟩
    · rw [decodedState_p, decodedState_p, decodedPrograms_decodedState]
    · exact BitVec.eq_of_toNat_eq (by rw [decodedState_np, decodedState_np, decodedPrograms_decodedState])
    · rw [decodedState_a, decodedState_a, decodedAlarms_decodedState]
    · exact BitVec.eq_of_toNat_eq (by rw [decodedState_na, decodedState_na, decodedAlarms_decodedState])
    · simp [decodedState]

/-- Settles O23: the sum stays below 512, and TSPLIT took off the 255 that TJOIN adds. -/
theorem temperatureJoin : Obligations.TemperatureJoin := ⟨tjoin_toNat, fun _ => tjoin_tsplit⟩

end Sys2Proof.Machine
end

section
/-! PROOFS. The checksum and the commands CSGEN and CSVFY (42_checksum). -/

namespace Sys2Proof.Machine

/-! ### The sum -/

/-- The first `n` bytes of an entry, by their indices. -/
theorem take_eq_map_getD {e : List Byte} {n : Nat} (h : n ≤ e.length) :
    e.take n = (List.range n).map fun k => e.getD k 0 := by
  refine List.ext_getElem (by simp [h]) fun k hk _ => ?_
  have hke : k < e.length := by simp only [List.length_take] at hk; omega
  rw [List.getElem_take, List.getElem_map, List.getElem_range, List.getD_eq_getElem _ _ hke]

/-- CSUM as a number (42_checksum R211). -/
theorem csum_toNat {e : List Byte} (h : 35 ≤ e.length) :
    (csum e).toNat = ((List.range 35).map fun k => (e.getD k 0).toNat).sum % 256 := by
  rw [csum, take_eq_map_getD h, List.map_map, BitVec.toNat_ofNat]
  rfl

/-- A sum does not depend on the order of its terms (42_checksum R211). -/
theorem csum_eq_of_perm {e e' : List Byte} (h : (e.take 35).Perm (e'.take 35)) : csum e = csum e' :=
  congrArg (BitVec.ofNat 8) (h.map BitVec.toNat).sum_eq

/-! ### One byte of IMG written -/

theorem imgByte_memWrite_singleton (s : State) (x : Nat) (v : Byte) : (s.memWrite x [v]).imgByte x = v :=
  imgByte_memWrite_self s x 0 [v] Nat.one_pos

theorem imgByte_memWrite_singleton_of_ne (s : State) {x y : Nat} (v : Byte) (h : y ≠ x) :
    (s.memWrite x [v]).imgByte y = s.imgByte y := by
  rw [imgByte_memWrite, if_neg (by simp only [List.length_singleton]; omega)]

/-- An entry read after a write to one of its bytes. -/
theorem memRead_memWrite_singleton (s : State) (x k n : Nat) (v : Byte) :
    (s.memWrite (x + k) [v]).memRead x n = (s.memRead x n).set k v := by
  refine List.ext_getElem (by simp) fun j _ _ => ?_
  simp only [List.getElem_set, memRead_eq, List.getElem_map, List.getElem_range]
  by_cases hj : k = j
  · rw [if_pos hj, ← hj, imgByte_memWrite_singleton]
  · rw [if_neg hj, imgByte_memWrite_singleton_of_ne s v (by omega)]

/-- Writing another value to one summed byte of an entry changes its checksum (42_checksum R214 a). -/
theorem imageSum_memWrite_ne {s : State} {x k : Nat} {v : Byte} (hk : k < 35) (hv : v ≠ s.imgByte (x + k)) :
    imageSum (s.memWrite (x + k) [v]) x ≠ imageSum s x := by
  have hlen : k < (s.memRead x 35).length := by rwa [length_memRead]
  have hget : (s.memRead x 35).getD k 0 = s.imgByte (x + k) := by
    rw [List.getD_eq_getElem _ _ hlen]; simp only [memRead_eq, List.getElem_map, List.getElem_range]
  rw [← csum_memRead _ x le_rfl, ← csum_memRead s x le_rfl, memRead_memWrite_singleton]
  exact csum_set_ne hk hlen (hget ▸ hv.symm)

/-! ### The states CSGEN and CSVFY leave -/

theorem success_csgen {sl : BitVec 3} (h : sl ≠ 7) (b : BitVec 5) (s : State) :
    Success (.csgen b sl) s (generatedState (eaAddr b sl) s) := ⟨h, rfl⟩

theorem success_csvfy {sl : BitVec 3} (h : sl ≠ 7) (b : BitVec 5) (s : State) :
    Success (.csvfy b sl) s (verifiedState (eaAddr b sl) s) := ⟨h, rfl⟩

/-- CSGEN stores the checksum at byte 35 (42_checksum R212). -/
theorem generatedState_imgByte_checksum (x : Nat) (s : State) :
    (generatedState x s).imgByte (x + 35) = imageSum s x :=
  imgByte_memWrite_singleton s (x + 35) (imageSum s x)

/-- CSGEN writes no other byte (42_checksum R212). -/
theorem generatedState_imgByte_of_ne (s : State) {x y : Nat} (h : y ≠ x + 35) :
    (generatedState x s).imgByte y = s.imgByte y :=
  imgByte_memWrite_singleton_of_ne s (imageSum s x) h

/-- Byte 35 takes no part in the sum, so CSGEN keeps it (42_checksum R211). -/
theorem imageSum_generatedState (x : Nat) (s : State) : imageSum (generatedState x s) x = imageSum s x :=
  imageSum_congr fun _ hk => generatedState_imgByte_of_ne s (by omega)

/-- CSGEN of a slot again stores what is there (42_checksum R212). -/
theorem generatedState_generatedState_imgByte (x y : Nat) (s : State) :
    (generatedState x (generatedState x s)).imgByte y = (generatedState x s).imgByte y := by
  by_cases hy : y = x + 35
  · rw [hy, generatedState_imgByte_checksum, generatedState_imgByte_checksum, imageSum_generatedState]
  · exact generatedState_imgByte_of_ne _ hy

/-- All that CSVFY changes: CSVAL, STATUS and ERRIDX (42_checksum R213). -/
theorem verifiedState_eq (x : Nat) (s : State) : verifiedState x s =
    { s with csval := imageSum s x, status := (verifiedState x s).status, erridx := 0 } := by
  simp only [verifiedState, State.succeed, State.setCsok, State.setCsval]

/-! ### The obligations -/

/-- Settles O36: the entry's first 35 bytes are those at the indices 0 to 34, and addition commutes. -/
theorem checksumIsTheAdditiveSum : Obligations.ChecksumIsTheAdditiveSum :=
  ⟨fun _ => csum_toNat, fun _ _ => csum_eq_of_perm⟩

/-- Settles O37: the sum changes by a nonzero amount of magnitude below 256. -/
theorem oneChangedByteChangesTheChecksum : Obligations.OneChangedByteChangesTheChecksum := by
  intro e k v h35 hk hv
  refine csum_set_ne h35 hk fun hget => hv ?_
  rw [List.getElem?_eq_getElem hk, ← hget, List.getD_eq_getElem _ _ hk]

/-- Settles O38: CSGEN is one write of byte 35, CSVAL and the flags of success. -/
theorem csgenStoresTheChecksum : Obligations.CsgenStoresTheChecksum := by
  intro b sl s
  refine ⟨fun hsl => ?_, fun hsl =>
    ⟨_, exec_of_errorCause (i := .csgen b sl) ⟨hsl, rfl, rfl⟩, raise_errorEntry .illegalCommand 0x00 s⟩⟩
  have hsucc := success_csgen hsl b s
  exact ⟨_, exec_of_success hsucc, rfl, hsucc.flags, by simp [generatedState],
    generatedState_imgByte_checksum (eaAddr b sl) s, fun _ hy => generatedState_imgByte_of_ne s hy⟩

/-- Settles O39: CSVFY writes CSVAL, CSOK and the flags of success, and no byte of IMG. -/
theorem csvfyComparesTheChecksum : Obligations.CsvfyComparesTheChecksum := by
  intro b sl s
  refine ⟨fun hsl => ?_, fun hsl =>
    ⟨_, exec_of_errorCause (i := .csvfy b sl) ⟨hsl, rfl, rfl⟩, raise_errorEntry .illegalCommand 0x00 s⟩⟩
  have hsucc := success_csvfy hsl b s
  exact ⟨_, exec_of_success hsucc, verifiedState_eq (eaAddr b sl) s, hsucc.flags,
    statusCsok_verifiedState (eaAddr b sl) s⟩

/-- Settles O40: after CSGEN byte 35 is the sum of the other 35, which CSGEN leaves. -/
theorem csgenRepairsTheSlot : Obligations.CsgenRepairsTheSlot := by
  intro b sl s hsl
  have hmatch : (generatedState (eaAddr b sl) s).imgByte (eaAddr b sl + 35) =
      imageSum (generatedState (eaAddr b sl) s) (eaAddr b sl) := by
    rw [generatedState_imgByte_checksum, imageSum_generatedState]
  exact ⟨_, _, _, exec_of_success (success_csgen hsl b s), exec_of_success (success_csvfy hsl b _),
    (statusCsok_verifiedState _ _).mpr hmatch, exec_of_success (success_csgen hsl b _),
    imageSum_generatedState (eaAddr b sl) s, fun y => generatedState_generatedState_imgByte (eaAddr b sl) y s⟩

/-- Settles O41: the patch changes the sum and leaves byte 35. -/
theorem patchedSlotFailsVerification : Obligations.PatchedSlotFailsVerification := by
  intro b sl s x v k hsl hk hx hmatch hv
  rw [← eaAddr_eq] at hx hmatch
  rw [hx] at hv
  refine ⟨_, _, perform_of_performed (t := .wrimg x v) rfl, exec_of_success (success_csvfy hsl b _), ?_⟩
  rw [← Bool.not_eq_true, statusCsok_verifiedState, hx, imgByte_memWrite_singleton_of_ne s v (by omega), hmatch]
  exact (imageSum_memWrite_ne hk hv).symm

end Sys2Proof.Machine
end

section
/-! PROOFS. The errors: which command raises which, for what cause, and what the error entry leaves (60_exceptions). -/

namespace Sys2Proof.Machine

/-! ### From an ERR code back to its cause -/

/-- A command that ends with ERR not 0 ends in the error entry for a cause (60_exceptions R238). -/
theorem errorCause_of_statusErr_ne_zero {i : Instr} {s t : State} (h : exec i s = .next t)
    (hne : statusErr t.status ≠ 0) : ∃ e info, ErrorCause i s e info ∧ t = raise e info s :=
  (exec_cases h).resolve_right fun hsucc => hne hsucc.flags.1

/-- The ERR code a command ends with tells the error: different errors have different codes (60_exceptions R230). -/
theorem errorCause_of_statusErr_eq_code {i : Instr} {s t : State} {e : BlockError} (h : exec i s = .next t)
    (hcode : statusErr t.status = e.code) : ∃ info, ErrorCause i s e info ∧ t = raise e info s := by
  obtain ⟨e', info, hcause, rfl⟩ := errorCause_of_statusErr_ne_zero h (hcode ▸ e.code_ne_zero)
  obtain ⟨-, hcode', -⟩ := raise_errorEntry e' info s
  obtain rfl := BlockError.code_injective (hcode'.symm.trans hcode)
  exact ⟨info, hcause, rfl⟩

/-- A command with a cause for an error ends with that error's code (60_exceptions R238). -/
theorem statusErr_of_errorCause {i : Instr} {s t : State} {e : BlockError} {info : Byte} (h : exec i s = .next t)
    (hcause : ErrorCause i s e info) : statusErr t.status = e.code := by
  rw [exec_of_errorCause hcause] at h
  cases h
  obtain ⟨-, hcode, -⟩ := raise_errorEntry e info s
  exact hcode

/-! ### The causes of ENCODE's errors -/

/-- The program list is too long (60_exceptions R232). -/
theorem encodeError_of_programs_over {s : State} (h : s.np.toNat > 112) :
    encodeError s = some (.capacityError, 0x00) := if_pos h

/-- The alarm list is too long, the program list is not (60_exceptions R232). -/
theorem encodeError_of_alarms_over {s : State} (hp : ¬ s.np.toNat > 112) (ha : s.na.toNat > 112) :
    encodeError s = some (.capacityError, 0x80) := (if_neg hp).trans (if_pos ha)

/-- What CHECKREC's answer says of the record (40_encoder R131). -/
theorem checkRec_eq_some {name : List Byte} {t : BitVec 9} {e : BlockError} (h : checkRec name t = some e) :
    e = .nameError ∧ name.head? = some 0xFF ∨ e = .domainError ∧ t.toNat > 482 := by
  by_cases hname : name.head? = some 0xFF
  · rw [checkRec_nameError hname] at h
    cases h
    exact .inl ⟨rfl, hname⟩
  · by_cases ht : t.toNat > 482
    · rw [checkRec_domainError hname ht] at h
      cases h
      exact .inr ⟨rfl, ht⟩
    · rw [checkRec_eq_none.mpr ⟨hname, Nat.not_lt.mp ht⟩] at h
      cases h

/-- `info` is the index byte, with list bit `lb`, of a record of `l` below `n` that fails CHECKREC with `e`
(10_state R32). -/
def PointsAtFailing {α : Type} (lb : Byte) (name : α → List Byte) (temperature : α → BitVec 9) (l : List α) (n : Nat)
    (e : BlockError) (info : Byte) : Prop :=
  ∃ k r, k < n ∧ l[k]? = some r ∧ checkRec (name r) (temperature r) = some e ∧ info = lb ||| BitVec.ofNat 8 k

/-- The scan of the first `n` records of a list reports one of them (40_encoder R141). -/
theorem pointsAtFailing_of_firstBad {α : Type} {lb : Byte} {name : α → List Byte} {temperature : α → BitVec 9}
    {l : List α} {n : Nat} {e : BlockError} {info : Byte}
    (h : firstBad lb 0 ((l.take n).map fun r => (name r, temperature r)) = some (e, info)) :
    PointsAtFailing lb name temperature l n e info := by
  obtain ⟨k, x, hx, he, hinfo, -⟩ := firstBad_eq_some.mp h
  rw [List.getElem?_map, Option.map_eq_some_iff] at hx
  obtain ⟨r, hr, rfl⟩ := hx
  rw [List.getElem?_take, Option.ite_none_right_eq_some] at hr
  exact ⟨k, r, hr.1, hr.2, he, by rwa [Nat.zero_add] at hinfo⟩

/-- `info` is the index byte of a record of P or of A, below its count, that fails CHECKREC with `e` (10_state R32). -/
def PointsAtFailingRecord (s : State) (e : BlockError) (info : Byte) : Prop :=
  PointsAtFailing 0x00 ProgramRecord.name ProgramRecord.temperature s.p s.np.toNat e info ∨
    PointsAtFailing 0x80 AlarmRecord.name AlarmRecord.temperature s.a s.na.toNat e info

/-- ENCODE's errors: a count over the capacity, or a record below its count that fails CHECKREC (40_encoder R141). -/
theorem encodeError_cases {s : State} {e : BlockError} {info : Byte} (h : encodeError s = some (e, info)) :
    e = .capacityError ∧ (s.np.toNat > 112 ∨ s.na.toNat > 112) ∨ PointsAtFailingRecord s e info := by
  by_cases hp : s.np.toNat > 112
  · rw [encodeError_of_programs_over hp] at h
    cases h
    exact .inl ⟨rfl, .inl hp⟩
  by_cases ha : s.na.toNat > 112
  · rw [encodeError_of_alarms_over hp ha] at h
    cases h
    exact .inl ⟨rfl, .inr ha⟩
  rw [encodeError, if_neg hp, if_neg ha] at h
  split at h
  next hbad =>
    cases h
    exact .inr (.inl (pointsAtFailing_of_firstBad hbad))
  next => exact .inr (.inr (pointsAtFailing_of_firstBad h))

/-- A record that fails is reported with NameError or DomainError (40_encoder R131). -/
theorem PointsAtFailing.nameError_or_domainError {α : Type} {lb : Byte} {name : α → List Byte}
    {temperature : α → BitVec 9} {l : List α} {n : Nat} {e : BlockError} {info : Byte}
    (h : PointsAtFailing lb name temperature l n e info) : e = .nameError ∨ e = .domainError := by
  obtain ⟨k, r, -, -, he, -⟩ := h
  exact (checkRec_eq_some he).imp And.left And.left

/-- The same, whichever list the record stands in. -/
theorem PointsAtFailingRecord.nameError_or_domainError {s : State} {e : BlockError} {info : Byte}
    (h : PointsAtFailingRecord s e info) : e = .nameError ∨ e = .domainError :=
  h.elim PointsAtFailing.nameError_or_domainError PointsAtFailing.nameError_or_domainError

/-- The record NameError names has a name that begins with 0xFF (60_exceptions R233). -/
theorem PointsAtFailing.badName {α : Type} {lb : Byte} {name : α → List Byte} {temperature : α → BitVec 9} {l : List α}
    {n : Nat} {info : Byte} (h : PointsAtFailing lb name temperature l n .nameError info) :
    ∃ k r, k < n ∧ l[k]? = some r ∧ (name r).head? = some 0xFF ∧ info = lb ||| BitVec.ofNat 8 k := by
  obtain ⟨k, r, hk, hr, he, hinfo⟩ := h
  obtain ⟨-, hname⟩ | ⟨⟨⟩, -⟩ := checkRec_eq_some he
  exact ⟨k, r, hk, hr, hname, hinfo⟩

/-- The record DomainError names has a temperature above 482 (60_exceptions R234). -/
theorem PointsAtFailing.badTemperature {α : Type} {lb : Byte} {name : α → List Byte} {temperature : α → BitVec 9}
    {l : List α} {n : Nat} {info : Byte} (h : PointsAtFailing lb name temperature l n .domainError info) :
    ∃ k r, k < n ∧ l[k]? = some r ∧ (temperature r).toNat > 482 ∧ info = lb ||| BitVec.ofNat 8 k := by
  obtain ⟨k, r, hk, hr, he, hinfo⟩ := h
  obtain ⟨⟨⟩, -⟩ | ⟨-, ht⟩ := checkRec_eq_some he
  exact ⟨k, r, hk, hr, ht, hinfo⟩

/-! ### Which command raises which error -/

/-- FormatError is DECODE's, of an image that is too short (60_exceptions R231). -/
theorem errorCause_formatError_iff {i : Instr} {s : State} {info : Byte} :
    ErrorCause i s .formatError info ↔ i = .decode ∧ s.ilen.toNat < 8192 ∧ info = 0x00 := by
  constructor
  · intro h
    cases i with
    | encode =>
      obtain ⟨⟨⟩, -⟩ | hbad := encodeError_cases h
      exact absurd hbad.nameError_or_domainError (by decide)
    | decode =>
      obtain ⟨hlen, -, hinfo⟩ := h
      exact ⟨rfl, hlen, hinfo⟩
    | csgen b sl => obtain ⟨-, ⟨⟩, -⟩ := h
    | csvfy b sl => obtain ⟨-, ⟨⟩, -⟩ := h
  · rintro ⟨rfl, hlen, rfl⟩
    exact ⟨hlen, rfl, rfl⟩

/-- A command's error that is neither FormatError nor IllegalCommand is ENCODE's (60_exceptions R232 to R234). -/
theorem encode_of_errorCause {i : Instr} {s : State} {e : BlockError} {info : Byte} (h : ErrorCause i s e info)
    (hformat : e ≠ .formatError) (hillegal : e ≠ .illegalCommand) :
    i = .encode ∧ encodeError s = some (e, info) := by
  cases i with
  | encode => exact ⟨rfl, h⟩
  | decode => obtain ⟨-, rfl, -⟩ := h; exact absurd rfl hformat
  | csgen b sl => obtain ⟨-, rfl, -⟩ := h; exact absurd rfl hillegal
  | csvfy b sl => obtain ⟨-, rfl, -⟩ := h; exact absurd rfl hillegal

/-- After a NameError or a DomainError the command was ENCODE and ERRIDX names a record that fails with it
(60_exceptions R233, R234). -/
theorem pointsAtFailingRecord_of_exec {i : Instr} {s t : State} {e : BlockError} (h : exec i s = .next t)
    (hcode : statusErr t.status = e.code) (he : e = .nameError ∨ e = .domainError) :
    i = .encode ∧ PointsAtFailingRecord s e t.erridx := by
  obtain ⟨info, hcause, rfl⟩ := errorCause_of_statusErr_eq_code h hcode
  obtain ⟨hformat, hillegal, hcapacity⟩ : e ≠ .formatError ∧ e ≠ .illegalCommand ∧ e ≠ .capacityError := by
    obtain rfl | rfl := he <;> decide
  obtain ⟨hi, herr⟩ := encode_of_errorCause hcause hformat hillegal
  exact ⟨hi, (encodeError_cases herr).resolve_left fun hover => hcapacity hover.1⟩

/-! ### The obligations -/

/-- Settles O8: an ERR code not 0 comes from `raise` alone, for a command and for a word that selects none. -/
theorem errorsChangeOnlyStatusAndErridx : Obligations.ErrorsChangeOnlyStatusAndErridx := by
  have hexec : ∀ (i : Instr) (s t : State), exec i s = .next t → statusErr t.status ≠ 0 →
      ∃ (e : BlockError) (info : Byte), t = raise e info s ∧ ErrorEntry s t e.code info := by
    intro i s t h hne
    obtain ⟨e, info, -, rfl⟩ := errorCause_of_statusErr_ne_zero h hne
    exact ⟨e, info, rfl, raise_errorEntry e info s⟩
  refine ⟨raise_errorEntry, hexec, fun w s t h hne => ?_⟩
  obtain ⟨i, -, hi⟩ | ⟨-, rfl⟩ : Performed (.cmd w) s t := perform_cases h
  · exact hexec i s t hi hne
  · exact ⟨.illegalCommand, 0x00, rfl, raise_errorEntry _ _ s⟩

/-- Settles O13: code 1 is FormatError's alone, and FormatError has the one cause. -/
theorem formatErrorExactlyWhenImageShort : Obligations.FormatErrorExactlyWhenImageShort := by
  intro i s t h
  refine ⟨⟨fun hcode => ?_, fun ⟨hi, hlen⟩ => ?_⟩, fun hcode => ?_⟩
  · obtain ⟨info, hcause, -⟩ := errorCause_of_statusErr_eq_code (e := .formatError) h hcode
    obtain ⟨hi, hlen, -⟩ := errorCause_formatError_iff.mp hcause
    exact ⟨hi, hlen⟩
  · exact statusErr_of_errorCause h (errorCause_formatError_iff.mpr ⟨hi, hlen, rfl⟩)
  · obtain ⟨info, hcause, rfl⟩ := errorCause_of_statusErr_eq_code (e := .formatError) h hcode
    obtain ⟨-, -, rfl⟩ := errorCause_formatError_iff.mp hcause
    rfl

/-- Settles O14: phase 1 of ENCODE tests NP, then NA; no record fails CHECKREC with CapacityError. -/
theorem capacityErrorExactlyWhenCountTooLarge : Obligations.CapacityErrorExactlyWhenCountTooLarge := by
  refine ⟨fun s hp => exec_encode_errorEntry (encodeError_of_programs_over hp),
    fun s hp ha => exec_encode_errorEntry (encodeError_of_alarms_over hp ha), fun i s t h hcode => ?_⟩
  obtain ⟨info, hcause, -⟩ := errorCause_of_statusErr_eq_code (e := .capacityError) h hcode
  obtain ⟨rfl, herr⟩ := encode_of_errorCause hcause (by decide) (by decide)
  obtain ⟨-, hover⟩ | hbad := encodeError_cases herr
  · exact ⟨rfl, hover⟩
  · exact absurd hbad.nameError_or_domainError (by decide)

/-- Settles O16: the record ENCODE reports failed the test of the name. -/
theorem nameErrorNamesABadName : Obligations.NameErrorNamesABadName := by
  intro i s t h hcode
  obtain ⟨hi, hp | ha⟩ := pointsAtFailingRecord_of_exec (e := .nameError) h hcode (.inl rfl)
  · obtain ⟨k, r, hk, hr, hname, hinfo⟩ := hp.badName
    exact ⟨hi, .inl ⟨k, r, hk, hr, hname, hinfo.trans (program_index_byte k)⟩⟩
  · exact ⟨hi, .inr ha.badName⟩

/-- Settles O17: the record ENCODE reports failed the test of the temperature. -/
theorem domainErrorNamesABadTemperature : Obligations.DomainErrorNamesABadTemperature := by
  intro i s t h hcode
  obtain ⟨hi, hp | ha⟩ := pointsAtFailingRecord_of_exec (e := .domainError) h hcode (.inr rfl)
  · obtain ⟨k, r, hk, hr, ht, hinfo⟩ := hp.badTemperature
    exact ⟨hi, .inl ⟨k, r, hk, hr, ht, hinfo.trans (program_index_byte k)⟩⟩
  · exact ⟨hi, .inr ha.badTemperature⟩

/-- Settles O7: the error entry leaves one of the five codes, a success leaves 0. -/
theorem everyCommandEndsInOneOfSixOutcomes : Obligations.EveryCommandEndsInOneOfSixOutcomes := by
  intro i s
  obtain ⟨e, info, -, hexec⟩ | ⟨t, hsucc, hexec⟩ := exec_outcome i s
  · obtain ⟨-, hcode, -⟩ := raise_errorEntry e info s
    exact ⟨_, hexec, hcode ▸ e.code_le_five⟩
  · obtain ⟨hzero, -⟩ := hsucc.flags
    exact ⟨t, hexec, hzero ▸ Nat.zero_le 5⟩

end Sys2Proof.Machine
end

section
/-! PROOFS. Reset (70_reset). -/

namespace Sys2Proof.Machine

/-- With no byte written since the reset, every address reads as its free byte (10_state R38, log entry 1). -/
theorem imgByte_of_img_eq_nil {s : State} (h : s.img = []) (y : Nat) : s.imgByte y = Config.resetByte s.resets y := by
  rw [State.imgByte, h, readByte, written_nil, Option.getD_none]

/-- A reset at the head of the inbox leaves the reset state; only the count of resets and the rest of the inbox carry
over (70_reset R260, log entries 1 and 2). -/
theorem step_reset {s : State} {rest : List Transaction} (hinbox : s.inbox = .reset :: rest) :
    step s = .next { State.reset with resets := s.resets + 1, inbox := rest } := by
  rw [step, hinbox]
  rfl

/-- Settles O58: the registers are those of the reset state, and IMG has no written byte. -/
theorem resetFromAnyState : Obligations.ResetFromAnyState := by
  intro s rest hinbox
  exact ⟨_, step_reset hinbox, rfl, rfl, rfl, rfl, rfl, rfl, rfl, rfl, rfl, rfl, imgByte_of_img_eq_nil rfl⟩

end Sys2Proof.Machine
end

section
/-! PROOFS. The spec's vectors of command words (95_test_vectors 2.8). -/

namespace Sys2Proof.Machine

/-- A table word decodes to the command whose row of the command map selects it (30_encoding R105, R106). -/
theorem decodeTableWord_of_selects {nbits w : Nat} {i : Instr} (h : Selects (tableWord nbits w) i) :
    decodeTableWord nbits w = some i :=
  decodeTableWord_eq_some.mpr (decodeWord_of_selects h)

/-- A table word that no row of the command map selects decodes to nothing (30_encoding R107). -/
theorem decodeTableWord_eq_none {nbits w : Nat} (h : ¬ ∃ i, Selects (tableWord nbits w) i) :
    decodeTableWord nbits w = none :=
  Option.eq_none_iff_forall_ne_some.mpr fun i hi =>
    h ⟨i, selects_of_decodeWord (decodeTableWord_eq_some.mp hi)⟩

/-- Settles O4: each word of a command has that command's opcode and operand fields, and the last four words have the
opcode 0, an operand where none is allowed, the reserved slot 7, and the opcode 0xFF. -/
theorem specWordsDecodeAsListed : Obligations.SpecWordsDecodeAsListed := by
  have hnone {w : Nat} := mt (exists_selects_iff (tableWord 16 w)).mp
  refine ⟨?_, ?_, ?_, ?_, ?_, ?_, ?_, ?_, ?_, ?_, ?_⟩
  · exact decodeTableWord_of_selects ⟨rfl, rfl⟩
  · exact decodeTableWord_of_selects ⟨rfl, rfl⟩
  · exact decodeTableWord_of_selects ⟨rfl, by decide, rfl, rfl⟩
  · exact decodeTableWord_of_selects ⟨rfl, by decide, rfl, rfl⟩
  · exact decodeTableWord_of_selects ⟨rfl, by decide, rfl, rfl⟩
  · exact decodeTableWord_of_selects ⟨rfl, by decide, rfl, rfl⟩
  · exact decodeTableWord_of_selects ⟨rfl, by decide, rfl, rfl⟩
  · exact decodeTableWord_eq_none (hnone (by decide))
  · exact decodeTableWord_eq_none (hnone (by decide))
  · exact decodeTableWord_eq_none (hnone (by decide))
  · exact decodeTableWord_eq_none (hnone (by decide))

end Sys2Proof.Machine
end
